-- ==== Sys2Proof/Word.lean ====
section
/-! DEFINITION. The plain widths of the block's values (spec/30_encoding.md R90, R95; spec/20_memory.md R60). Every
value is unsigned, bit 0 is the least significant (spec/00_scope.md R15). -/

namespace Sys2Proof

/-- A host command word, and the status word: 16 bits (30_encoding.md R90, 10_state.md R40). -/
abbrev Word := BitVec 16

/-- An expander byte, a logical byte or a byte of text (20_memory.md R68). -/
abbrev Byte := BitVec 8

/-- A 4-bit payload, and the response word (00_scope.md R19, 30_encoding.md R105). -/
abbrev Nibble := BitVec 4

/-- `TEXT_AW` = 12, fixed by the command format (00_scope.md R13). -/
abbrev textAw : Nat := 12

/-- A text memory address, 0x000 to 0xFFF (20_memory.md R60). -/
abbrev TextAddr := BitVec textAw

end Sys2Proof
end

