-- ==== Sys2Proof/Syntax.lean ====
section
/-! DEFINITION. The host commands: one constructor per row of spec/opcode_table.json (spec/30_encoding.md R91, R92). -/

namespace Sys2Proof

/-- The 1-bit row index of SETCUR: index 0 is the source's row 1, index 1 the second row (30_encoding.md R93,
90_conflicts.md C8). -/
inductive Row where
  | first
  | second
deriving DecidableEq, Repr

/-- A host command, decoded, with its operands as 30_encoding.md R92 and R93 give them. -/
inductive Instr where
  /-- OP 0x0, format Z: the initialization sequence (41_init.md R151). -/
  | init
  /-- OP 0x1, format Z (42_display_ops.md R171). -/
  | clear
  /-- OP 0x2, format C: `CH` = ARG[7:0] (R172). -/
  | printc (ch : Byte)
  /-- OP 0x3, format A: `ADDR` = ARG[11:0] (R173). -/
  | prints (addr : TextAddr)
  /-- OP 0x4, format P: `ROW` = ARG[8], `COL` = ARG[7:0] (R174). -/
  | setcur (row : Row) (col : Byte)
  /-- OP 0x5, format Z (R175). -/
  | curon
  /-- OP 0x6, format Z (R176). -/
  | curoff
  /-- OP 0x7, format B: `V` = ARG[0] (43_control_ops.md R200). -/
  | setbl (v : Bool)
  /-- An illegal word: OP 0x8 to 0xF, or a reserved bit set (30_encoding.md R94; 43_control_ops.md R202). The whole
  word is its operand (log entry 13). -/
  | reserved (w : Word)
deriving DecidableEq, Repr

/-- INIT is the one command that owns `S.phase` (10_state.md R33). -/
def Instr.isInit : Instr → Bool
  | .init => true
  | .clear => false
  | .printc _ => false
  | .prints _ => false
  | .setcur _ _ => false
  | .curon => false
  | .curoff => false
  | .setbl _ => false
  | .reserved _ => false

/-- The commands behind the readiness gate (42_display_ops.md R170). -/
def Instr.isDisplay : Instr → Bool
  | .clear => true
  | .printc _ => true
  | .prints _ => true
  | .setcur _ _ => true
  | .curon => true
  | .curoff => true
  | .init => false
  | .setbl _ => false
  | .reserved _ => false

end Sys2Proof
end

