-- ==== Sys2Proof/Machine/Encoding.lean ====
section
/-! DEFINITION. The encoding tables of spec/30_encoding.md: the pattern rows of R92, and the operand formats with the
reserved bits of R92 from which R94 says when a word is illegal. -/

namespace Sys2Proof

/-- The legal mnemonics of 30_encoding.md R91, in opcode order. -/
inductive Mnemonic where
  | init | clear | printc | prints | setcur | curon | curoff | setbl
deriving DecidableEq, Repr

/-- One row of R92's second table. -/
structure Pattern where
  mnemonic : Mnemonic
  bits : Word
  mask : Word
deriving DecidableEq, Repr

/-- 30_encoding.md R92, "Written as full 16-bit patterns". -/
def patterns : List Pattern :=
  [ ⟨.init, 0x0000, 0xFFFF⟩, ⟨.clear, 0x1000, 0xFFFF⟩, ⟨.printc, 0x2000, 0xFF00⟩, ⟨.prints, 0x3000, 0xF000⟩,
    ⟨.setcur, 0x4000, 0xFE00⟩, ⟨.curon, 0x5000, 0xFFFF⟩, ⟨.curoff, 0x6000, 0xFFFF⟩, ⟨.setbl, 0x7000, 0xFFFE⟩ ]

/-- "A word `w` is the command `X` exactly when `(w & mask_X) = match_X`" (R92). -/
def Pattern.fits (p : Pattern) (w : Word) : Bool := w &&& p.mask == p.bits

/-- The command a word is by R92's rows, if any. -/
def rowOf (w : Word) : Option Mnemonic := (patterns.find? (fun p => p.fits w)).map (fun p => p.mnemonic)

/-- The five operand formats of R92. -/
inductive Format where
  | z | c | a | p | b
deriving DecidableEq, Repr

/-- The ARG bits R92's first table marks `0`. -/
def Format.reservedBits : Format → BitVec 12
  | .z => 0xFFF
  | .c => 0xF00
  | .a => 0x000
  | .p => 0xE00
  | .b => 0xFFE

/-- `OP` = bits [15:12] (R90). -/
def opField (w : Word) : BitVec 4 := w.extractLsb' 12 4

/-- `ARG` = bits [11:0] (R90). -/
def argField (w : Word) : BitVec 12 := w.extractLsb' 0 12

/-- The format of an opcode (R91); none for the reserved opcodes 0x8 to 0xF. -/
def formatOf (op : BitVec 4) : Option Format :=
  match op.toNat with
  | 0 => some .z
  | 1 => some .z
  | 2 => some .c
  | 3 => some .a
  | 4 => some .p
  | 5 => some .z
  | 6 => some .z
  | 7 => some .b
  | _ => none

/-- A word is illegal when its OP is 0x8 to 0xF, or a bit that R92 marks `0` is 1 (R94). -/
def isIllegal (w : Word) : Bool :=
  match formatOf (opField w) with
  | none => true
  | some f => argField w &&& f.reservedBits != 0

/-- The row of R91 an instruction stands for; none for an illegal word. -/
def Instr.row : Instr → Option Mnemonic
  | .init => some .init
  | .clear => some .clear
  | .printc _ => some .printc
  | .prints _ => some .prints
  | .setcur _ _ => some .setcur
  | .curon => some .curon
  | .curoff => some .curoff
  | .setbl _ => some .setbl
  | .reserved _ => none

end Sys2Proof
end

