-- ==== Sys2Proof/WellFormed.lean ====
section
/-! DEFINITION. Which terms of `Instr` stand for a command word. The operand widths of spec/30_encoding.md R92 are in
the types, so the one check is that the word of an illegal command is illegal (R94). -/

namespace Sys2Proof

/-- An instruction that some 16-bit word is. -/
def Instr.wellFormed : Instr → Bool
  | .init => true
  | .clear => true
  | .printc _ => true
  | .prints _ => true
  | .setcur _ _ => true
  | .curon => true
  | .curoff => true
  | .setbl _ => true
  | .reserved w => isIllegal w

/-- `Instr.wellFormed` as a proposition. -/
abbrev Instr.WellFormed (i : Instr) : Prop := i.wellFormed = true

end Sys2Proof
end

