-- ==== Sys2Proof/Decode.lean ====
section
/-! DEFINITION. The decoder of spec/30_encoding.md R107, total on every 16-bit word, and the encoder written from the
patterns of R92. -/

namespace Sys2Proof

/-- ARG[8], the row bit (R93). -/
def rowOfBit (b : Bool) : Row := if b then .second else .first

/-- The bit of a row (R93). -/
def Row.bit : Row → BitVec 1
  | .first => 0
  | .second => 1

/-- 30_encoding.md R107. An illegal word decodes to the instruction that rejects it (R202). -/
def decode (w : Word) : Instr :=
  let op := opField w
  let arg := argField w
  match op.toNat with
  | 0 => if arg = 0 then .init else .reserved w
  | 1 => if arg = 0 then .clear else .reserved w
  | 2 => if arg.extractLsb' 8 4 = 0 then .printc (arg.extractLsb' 0 8) else .reserved w
  | 3 => .prints arg
  | 4 => if arg.extractLsb' 9 3 = 0 then .setcur (rowOfBit (arg.getLsbD 8)) (arg.extractLsb' 0 8) else .reserved w
  | 5 => if arg = 0 then .curon else .reserved w
  | 6 => if arg = 0 then .curoff else .reserved w
  | 7 => if arg.extractLsb' 1 11 = 0 then .setbl (arg.getLsbD 0) else .reserved w
  | _ => .reserved w

/-- The word of an instruction, each from its row of R92 (bit 15 first). -/
def encode : Instr → Word
  | .init => 0x0000
  | .clear => 0x1000
  | .printc ch => 0b00100000#8 ++ ch
  | .prints addr => 0b0011#4 ++ addr
  | .setcur row col => 0b0100000#7 ++ row.bit ++ col
  | .curon => 0x5000
  | .curoff => 0x6000
  | .setbl v => 0b011100000000000#15 ++ BitVec.ofBool v
  | .reserved w => w

/-- What cannot be a command word at all: "A decoder always takes exactly one 16-bit word per command" (R108). -/
inductive DecodeError where
  /-- The length in bits is not 16. -/
  | notOneWord (nbits : Nat)
  /-- The number has bits above bit 15. -/
  | wider (w : Nat)
deriving DecidableEq, Repr

/-- Decoding of any bits whatever: one 16-bit word is decoded by `decode`, anything else is rejected by name. -/
def decodeBits (nbits w : Nat) : Except DecodeError Instr :=
  if nbits = 16 then
    if w < 2 ^ 16 then .ok (decode (BitVec.ofNat 16 w)) else .error (.wider w)
  else .error (.notOneWord nbits)

/-- The instruction read from an opcode-table word (bit 0 least significant; a command word is one unit on its port,
20_memory.md R66). -/
def decodeTableWord (nbits w : Nat) : Option Instr :=
  match decodeBits nbits w with
  | .ok i => some i
  | .error _ => none

end Sys2Proof
end

