-- ==== Sys2Proof/Config.lean ====
section
/-! DEFINITION. What an implementation fixes: the parameters of spec/00_scope.md R13, as plain data (their defaults and
the constraints of R14 stand in Machine/Parameters.lean), and the free values: the transport's answers, and what a racing
read of the text memory returns. -/

namespace Sys2Proof

/-- The named parameters of 00_scope.md R13. `TEXT_AW` is fixed by the command format and is the width of `TextAddr`. -/
structure Params where
  /-- `EN_BIT`: bit position of the enable line. -/
  enBit : Nat
  /-- `BL_POS`: bit position of the backlight line. -/
  blPos : Nat
  /-- `RS_DATA`: expander value of register-select = Data. -/
  rsData : Byte
  /-- `RS_CMD`: expander value of register-select = Command. -/
  rsCmd : Byte
  /-- `PAYLOAD_SHIFT`: left shift applied to a nibble. -/
  payloadShift : Nat
  /-- `CLR_LCD`. -/
  clrLcd : Byte
  /-- `RETURN_HOME`. -/
  returnHome : Byte
  /-- `ENTRY_MODE`. -/
  entryMode : Byte
  /-- `AUTOINCREMENT`. -/
  autoincrement : Byte
  /-- `DISPLAY_CONTROL`. -/
  displayControl : Byte
  /-- `DISPLAY_ON`. -/
  displayOn : Byte
  /-- `CURSOR_ON`. -/
  cursorOn : Byte
  /-- `CURSOR_BLINK`. -/
  cursorBlink : Byte
  /-- `FUNCTION_SET_4BIT`. -/
  functionSet : Byte
  /-- `SET_CURSOR`. -/
  setCursor : Byte
  /-- `ROW_BASE[0]`, the source's row 1. -/
  rowBase0 : Byte
  /-- `ROW_BASE[1]`, the second row. -/
  rowBase1 : Byte
  /-- `BOOT_NIBBLES`, first payload. -/
  bootNibble1 : Nibble
  /-- `BOOT_NIBBLES`, second payload. -/
  bootNibble2 : Nibble
  /-- `BOOT_NIBBLES`, third payload. -/
  bootNibble3 : Nibble
  /-- `BACKLIGHT_RESET`: value of `S.bl` after reset. -/
  backlightReset : Bool
  /-- `REQUIRE_READY`. -/
  requireReady : Bool
  /-- `CHECK_BOUNDS`. -/
  checkBounds : Bool
  /-- `NUM_COLUMNS`. -/
  numColumns : Nat
  /-- `T_INIT`, in ms. -/
  tInit : Nat
  /-- `T_BOOT1`, in ms. -/
  tBoot1 : Nat
  /-- `T_BOOT2`, in ms. -/
  tBoot2 : Nat
  /-- `T_BOOT3`, in ms. -/
  tBoot3 : Nat
  /-- `T_LONG`, in ms. -/
  tLong : Nat
  /-- `T_SHORT`, in ms. -/
  tShort : Nat
deriving DecidableEq, Repr

/-- FREE VALUE: the transport's answer to the n-th call it is asked, "a free input of that step, under no law"
(60_exceptions.md R229). No body: nothing can be proved of its value. Used only where the state's own list of coming
answers is empty (log entry 4; DESIGN CHOICE, safe for one instance). All instances share it (log entry 18; DESIGN CHOICE,
unsafe for a claim that compares two). -/
opaque Config.transportAnswer : Nat → Bool

/-- FREE VALUE: which of the bytes an address has held a read that races with the host's writes returns
(92_eei_decisions.md D36, 93_implementation_defined.md U12), for the read made when the record has n entries. No body.
Used only where the state's own list of choices is empty (log entry 19; DESIGN CHOICE, safe for one instance). All instances
share it (log entry 18; DESIGN CHOICE, unsafe for a claim that compares two). -/
opaque Config.racedPick : Nat → Nat

end Sys2Proof
end

