-- ==== Sys2Proof/Machine/Parameters.lean ====
section
/-! DEFINITION. The parameters' defaults (spec/00_scope.md R13) and constraints (R14), and what is read off them: the
register-select values, the enable mask, the configuration bytes of spec/30_encoding.md R101 and the row bases. -/

namespace Sys2Proof

/-- The defaults of 00_scope.md R13 (the spec's own values; those it marks [from general knowledge] are listed in log
entry 15). -/
def Params.default : Params where
  enBit := 2
  blPos := 3
  rsData := 0x01
  rsCmd := 0x00
  payloadShift := 4
  clrLcd := 0x01
  returnHome := 0x02
  entryMode := 0x04
  autoincrement := 0x02
  displayControl := 0x08
  displayOn := 0x04
  cursorOn := 0x02
  cursorBlink := 0x01
  functionSet := 0x28
  setCursor := 0x80
  rowBase0 := 0x00
  rowBase1 := 0x40
  bootNibble1 := 0x3
  bootNibble2 := 0x3
  bootNibble3 := 0x2
  backlightReset := true
  requireReady := false
  checkBounds := false
  numColumns := 16
  tInit := 50
  tBoot1 := 5
  tBoot2 := 1
  tBoot3 := 1
  tLong := 2
  tShort := 0

/-- A register-select value R14 allows: "0 or a single bit in 0..3 that differs from `EN_BIT` and `BL_POS`". -/
def Params.rsAllowed (p : Params) (v : Byte) : Bool :=
  v == 0 || (List.range 4).any (fun k => v == 1#8 <<< k && k != p.enBit && k != p.blPos)

/-- The constraints of 00_scope.md R14, and that the payload sits in bits [7:4] (R18, 30_encoding.md R95 write the
shift as the literal 4; log entry 3). The widths are in the types and delays are natural numbers. -/
def Params.valid (p : Params) : Bool :=
  p.enBit != p.blPos && p.enBit < 4 && p.blPos < 4
    && p.rsData != p.rsCmd && p.rsAllowed p.rsData && p.rsAllowed p.rsCmd
    && p.payloadShift == 4
    && 1 ≤ p.numColumns && p.numColumns ≤ 256

/-- Register-select: Command or Data (00_scope.md R19). -/
inductive RegSelect where
  | command
  | data
deriving DecidableEq, Repr

/-- The expander value of a register-select (`RS_CMD`, `RS_DATA`). -/
def Params.rsValue (p : Params) : RegSelect → Byte
  | .command => p.rsCmd
  | .data => p.rsData

/-- `1 << EN_BIT`. -/
def Params.enMask (p : Params) : Byte := 1#8 <<< p.enBit

/-- `ROW_BASE[r]` (30_encoding.md R93). -/
def Params.rowBase (p : Params) : Row → Byte
  | .first => p.rowBase0
  | .second => p.rowBase1

/-- `CFG[i]`, the configuration sequence of 30_encoding.md R101. -/
def Params.cfgByte (p : Params) (i : Fin 6) : Byte :=
  match i.val with
  | 0 => p.functionSet
  | 1 => p.displayControl
  | 2 => p.returnHome
  | 3 => p.entryMode ||| p.autoincrement
  | 4 => p.displayControl ||| p.displayOn
  | _ => p.clrLcd

end Sys2Proof
end

