-- ==== Sys2Proof/Machine/State.lean ====
section
/-! DEFINITION. The state of the machine: the block's registers (spec/10_state.md R32), its internal sequencer (R39),
the host's text memory (spec/20_memory.md R61), the environment of R44, and the model's own inputs and record. -/

namespace Sys2Proof.Machine

/-- `S.phase` (10_state.md R33). Code 7 is never held. -/
inductive Phase where
  | uninit | boot1 | boot2 | boot3 | config | ready | faulted
deriving DecidableEq, Repr

/-- The error codes of 30_encoding.md R106; codes 6 and 7 are never produced. -/
inductive ErrCode where
  | ok | transportWriteFailed | transportInitFailed | notInitialized | outOfRange | illegalCommand
deriving DecidableEq, Repr

/-- A collaborator call (00_scope.md R12, R17). -/
inductive Call where
  /-- `BusInit()` -/
  | busInit
  /-- `BusWrite(v)` -/
  | write (v : Byte)
  /-- `Delay(ms)` -/
  | delay (ms : Nat)
  /-- `MemRead(a, 1)` -/
  | read (a : TextAddr)
deriving DecidableEq, Repr

/-- A call that was answered: an event of the trace (00_scope.md R17). -/
inductive Event where
  /-- `Init(ok)` -/
  | init (ok : Bool)
  /-- `Write(v, ok)` -/
  | write (v : Byte) (ok : Bool)
  /-- `Delay(ms)` -/
  | delay (ms : Nat)
  /-- `Read(a, byte)` -/
  | read (a : TextAddr) (c : Byte)
deriving DecidableEq, Repr

/-- A statement of the spec's pseudocode that is still to run. A command's pseudocode is a list of these, and the
sequencer position (10_state.md R31) is the list that is left. -/
inductive Micro where
  /-- `GATE_READY()` (42_display_ops.md R170). -/
  | gateReady
  /-- `if CHECK_BOUNDS = 1 and COL >= NUM_COLUMNS then raise E(OutOfRange)` (R174). -/
  | checkColumn (col : Byte)
  /-- `ok <- BusInit()`, and the raise (41_init.md R151). -/
  | busInit
  /-- `if ms > 0 then Delay(ms)` (41_init.md R151, 40_encoder.md R133). -/
  | delay (ms : Nat)
  /-- `SEND_NIBBLE(n, rs)`: build the expander byte, then the first write of its pulse (40_encoder.md R132). -/
  | enable (n : Nibble) (rs : RegSelect)
  /-- The second write of the pulse of `v` (40_encoder.md R131). -/
  | release (v : Byte)
  /-- `S.phase <- p` -/
  | setPhase (p : Phase)
  /-- `S.cfg_idx <- i` -/
  | setCfg (i : Fin 6)
  /-- `S.bl <- v` (43_control_ops.md R200). -/
  | setBl (v : Bool)
  /-- `c <- MemRead(a, 1)` at the head of the loop of PRINTS (R173). -/
  | readChar (a : TextAddr)
  /-- `if a = 0xFFF then raise E(OutOfRange)`, `a <- a + 1`, and the loop again (R173). -/
  | nextChar (a : TextAddr)
  /-- `raise E(IllegalCommand)` (43_control_ops.md R202). -/
  | illegal
deriving DecidableEq, Repr

/-- The internal sequencer registers while a command runs (10_state.md R39): the decoded command with its operands, the
collaborator call that is in progress, and the rest of the pseudocode. Log entry 9. -/
structure Seq where
  cmd : Instr
  call : Call
  rest : List Micro
deriving DecidableEq, Repr

/-- One entry of the record of the observable behaviour (00_scope.md R11), oldest first. Log entry 10. -/
inductive Entry where
  /-- The block accepted a command (43_control_ops.md R203). -/
  | accepted (i : Instr)
  /-- An event of the trace. -/
  | event (e : Event)
  /-- A command ended with this response word (30_encoding.md R105). -/
  | responded (i : Instr) (r : Nibble)
  /-- A status read returned this word (10_state.md R40); not an event (R41). -/
  | status (w : Word)
  /-- A reset, with the call it cut off, issued and never answered (70_reset_and_hazards.md R262); not an event. -/
  | reset (cut : Option Call)
deriving DecidableEq, Repr

/-- What the host does next (00_scope.md R12). Log entry 5. -/
inductive HostAction where
  /-- Offer a word on the command port, and wait until it is accepted (43_control_ops.md R204). -/
  | command (w : Word)
  /-- Read the status port (43_control_ops.md R201). -/
  | readStatus
  /-- Write a byte of the text memory, which is the host's own (20_memory.md R61, R77). -/
  | writeText (a : TextAddr) (b : Byte)
  /-- Reset the block, power-on among the resets (70_reset_and_hazards.md R260, R263). -/
  | reset
  /-- Do nothing while the block completes one call. -/
  | quiet
deriving DecidableEq, Repr

/-- The expander output latch (10_state.md R44): every byte it may hold, or any byte at all. Log entry 7. -/
inductive Latch where
  | any
  | oneOf (bs : List Byte)
deriving DecidableEq, Repr

/-- The LCD controller as far as the spec follows it (10_state.md R44): its state is unknown, or it is in 4-bit step and
expects a high or a low nibble next, having latched these expander bytes since it came into step. Log entry 8. -/
inductive Lcd where
  | unknown
  | expectsHigh (latched : List Byte)
  | expectsLow (latched : List Byte)
deriving DecidableEq, Repr

/-- The text memory, in canonical form (Machine/TextMemory.lean). -/
abbrev Memory := List Host.Cell

/-- The whole machine. -/
structure State where
  /-- The parameters, fixed for the machine: no step writes them. Log entry 2. -/
  params : Params
  /-- `S.phase` -/
  phase : Phase
  /-- `S.cfg_idx` -/
  cfgIdx : Fin 6
  /-- `S.bl` -/
  bl : Bool
  /-- `S.faulted` -/
  faulted : Bool
  /-- `S.last_err` -/
  lastErr : ErrCode
  /-- `S.busy` -/
  busy : Bool
  /-- The internal sequencer registers (R39); none while no command runs. -/
  seq : Option Seq
  /-- The host's text memory (20_memory.md R61). -/
  text : Memory
  /-- The bytes that host writes have replaced since the running command was accepted, with their addresses: what a racing
  read may still return (20_memory.md R77; 92_eei_decisions.md D36). Log entry 19. -/
  raced : List (TextAddr × Byte)
  /-- The coming choices of racing reads, a free input (93_implementation_defined.md U12). Log entry 19. -/
  picks : List Nat
  /-- What the host does next. -/
  inbox : List HostAction
  /-- The transport's coming answers, a free input (60_exceptions.md R229). Log entry 4. -/
  answers : List Bool
  /-- How many answers have been drawn: the index of the free value past the list. -/
  drawn : Nat
  /-- The expander output latch (R44). -/
  latch : Latch
  /-- The LCD controller (R44). -/
  lcd : Lcd
  /-- The record of the observable behaviour. -/
  log : List Entry
deriving DecidableEq, Repr

/-- The reasons a run stops with a fault: none. The block has no trap (60_exceptions.md R220): every error ends a
command with a response and the block goes on. Log entry 23. -/
inductive Fault where
deriving DecidableEq, Repr

/-- The reasons a step has no meaning. -/
inductive Refusal where
  /-- Raised by exec's arm of an instruction that has no meaning yet. Safe. -/
  | notModelled (mnemonic : String)
  /-- Raised by `step` and by every command: the parameters break 00_scope.md R14, which "must refuse them" (U19). Safe. -/
  | badParameters
  /-- Raised by a command given to a block that is busy: "A model gives the host no step that issues a command while
  `S.busy = 1`" (43_control_ops.md R204). `step` never raises it. Safe, log entry 11. -/
  | portBusy
  /-- Raised by `step` in a state that says busy and holds no command, which no run reaches: the internal registers are
  read where no command has set them (10_state.md R39, U9). Safe, log entry 12. -/
  | sequencerUnset
deriving DecidableEq, Repr

/-- The machine right after power-on and reset: the registers as 10_state.md R46 and 70_reset_and_hazards.md R260 give
them at the default parameters, nothing issued (R261), the environment unknown (R263). -/
def State.reset : State where
  params := Params.default
  phase := .uninit
  cfgIdx := 0
  bl := Params.default.backlightReset
  faulted := false
  lastErr := .ok
  busy := false
  seq := none
  text := []
  raced := []
  picks := []
  inbox := []
  answers := []
  drawn := 0
  latch := .any
  lcd := .unknown
  log := []

end Sys2Proof.Machine
end

