-- ==== Sys2Proof/Machine/Operands.lean ====
section
/-! DEFINITION. The byte marshaller and the bytes the commands send (spec/40_encoder.md R131 to R134,
spec/30_encoding.md R96, R102): how SEND_NIBBLE and SEND_MESSAGE are written as pseudocode lists. -/

namespace Sys2Proof.Machine

/-- `b[7:4]` (20_memory.md R65). -/
def highNibble (b : Byte) : Nibble := b.extractLsb' 4 4

/-- `b[3:0]` (20_memory.md R65). -/
def lowNibble (b : Byte) : Nibble := b.extractLsb' 0 4

/-- `Nib(n, rs)`: the expander byte of a nibble with the enable bit clear (30_encoding.md R96). -/
def nib (p : Params) (bl : Bool) (n : Nibble) (rs : RegSelect) : Byte :=
  p.rsValue rs ||| ((BitVec.ofBool bl).setWidth 8 <<< p.blPos) ||| (n.setWidth 8 <<< p.payloadShift)

/-- `v | (1 << EN_BIT)`, the first write of a pulse (40_encoder.md R131). -/
def raised (p : Params) (v : Byte) : Byte := v ||| p.enMask

/-- `SETTLE(b, rs)` (40_encoder.md R134). -/
def settle (p : Params) (b : Byte) (rs : RegSelect) : Nat :=
  match rs with
  | .command => if b = p.clrLcd ∨ b = p.returnHome then p.tLong else p.tShort
  | .data => p.tShort

/-- `SEND_NIBBLE(n, rs)` (40_encoder.md R132); its release write follows from the first one (R131). -/
def sendNibble (n : Nibble) (rs : RegSelect) : List Micro := [.enable n rs]

/-- `SEND_MESSAGE(b, rs)` (40_encoder.md R133): high nibble, low nibble, settle. -/
def sendMessage (p : Params) (b : Byte) (rs : RegSelect) : List Micro :=
  sendNibble (highNibble b) rs ++ sendNibble (lowNibble b) rs ++ [.delay (settle p b rs)]

/-- `SET_CURSOR | ((ROW_BASE[r] + k) mod 256)` (42_display_ops.md R174). -/
def cursorByte (p : Params) (r : Row) (k : Byte) : Byte := p.setCursor ||| (p.rowBase r + k)

/-- The byte of CURON (42_display_ops.md R175). -/
def cursorOnByte (p : Params) : Byte := p.displayControl ||| p.displayOn ||| p.cursorOn ||| p.cursorBlink

/-- The byte of CUROFF (42_display_ops.md R176). -/
def cursorOffByte (p : Params) : Byte := p.displayControl ||| p.displayOn

/-- The character that ends a text, 0x00 (42_display_ops.md R173). -/
def terminator : Byte := 0x00

/-- The last text address, 0xFFF (42_display_ops.md R173). -/
def lastText : TextAddr := 0xFFF

end Sys2Proof.Machine
end

