-- ==== Sys2Proof/Machine/Environment.lean ====
section
/-! DEFINITION. The environment behind the transport (spec/10_state.md R44): the expander output latch and the LCD
controller, as far as the spec follows them. The block reads neither. -/

namespace Sys2Proof.Machine

/-- The latch after a write answered `true`: the byte was delivered. After `false`, "A model of the LCD must allow both
outcomes" (40_encoder.md R139): the byte is one more that the latch may hold. -/
def Latch.afterWrite (l : Latch) (v : Byte) (ok : Bool) : Latch :=
  match ok, l with
  | true, _ => .oneOf [v]
  | false, .any => .any
  | false, .oneOf bs => .oneOf (v :: bs)

/-- Whether the latch may hold a byte. -/
def Latch.mayHold (l : Latch) (v : Byte) : Bool :=
  match l with
  | .any => true
  | .oneOf bs => bs.contains v

/-- Whether the byte has the enable bit set. -/
def enableSet (p : Params) (v : Byte) : Bool := v.getLsbD p.enBit

/-- Whether the expander's enable line may be high (70_reset_and_hazards.md R268). -/
def Latch.enMayBeHigh (p : Params) (l : Latch) : Bool :=
  match l with
  | .any => true
  | .oneOf bs => bs.any (enableSet p)

/-- Whether the expander's enable line may be low. -/
def Latch.enMayBeLow (p : Params) (l : Latch) : Bool :=
  match l with
  | .any => true
  | .oneOf bs => bs.any (fun b => !enableSet p b)

/-- The controller latches the nibble of an expander byte at the falling edge of the enable line (70_reset_and_hazards.md
R268): high nibble, then low nibble. -/
def Lcd.latchNibble (l : Lcd) (v : Byte) : Lcd :=
  match l with
  | .unknown => .unknown
  | .expectsHigh bs => .expectsLow (bs ++ [v])
  | .expectsLow bs => .expectsHigh (bs ++ [v])

/-- The controller after a write: a delivered release write is the falling edge; after a failed write its state is
unknown until an INIT succeeds (70_reset_and_hazards.md R267, U4; log entry 8). -/
def Lcd.afterWrite (p : Params) (l : Lcd) (v : Byte) (ok : Bool) : Lcd :=
  match ok with
  | true => if enableSet p v then l else l.latchNibble v
  | false => .unknown

end Sys2Proof.Machine
end

