-- ==== Sys2Proof/Machine/Flags.lean ====
section
/-! DEFINITION. The codes the registers show as, the status word (spec/10_state.md R33, R40) and the response word
(spec/30_encoding.md R105, R106). -/

namespace Sys2Proof.Machine

/-- The phase codes of 10_state.md R33. -/
def Phase.code : Phase → BitVec 3
  | .uninit => 0
  | .boot1 => 1
  | .boot2 => 2
  | .boot3 => 3
  | .config => 4
  | .ready => 5
  | .faulted => 6

/-- The error codes of 30_encoding.md R106. -/
def ErrCode.code : ErrCode → BitVec 3
  | .ok => 0
  | .transportWriteFailed => 1
  | .transportInitFailed => 2
  | .notInitialized => 3
  | .outOfRange => 4
  | .illegalCommand => 5

/-- The kinds that set `S.faulted` (60_exceptions.md R221). -/
def ErrCode.isTransport : ErrCode → Bool
  | .ok => false
  | .transportWriteFailed => true
  | .transportInitFailed => true
  | .notInitialized => false
  | .outOfRange => false
  | .illegalCommand => false

/-- `FAIL`, bit 3 of the response word (30_encoding.md R105). -/
def ErrCode.fail (e : ErrCode) : Bool := e != .ok

/-- The response word: `FAIL` over `CODE` (R105). -/
def ErrCode.response (e : ErrCode) : Nibble := BitVec.ofBool e.fail ++ e.code

/-- The status word (10_state.md R40): reserved [15:12], `CFG_IDX` [11:9], `LAST_ERR` [8:6], `BUSY` [5], `BL` [4],
`FAULTED` [3], `PHASE` [2:0]. -/
def State.statusWord (s : State) : Word :=
  0#4 ++ BitVec.ofNat 3 s.cfgIdx.val ++ s.lastErr.code ++ BitVec.ofBool s.busy ++ BitVec.ofBool s.bl
    ++ BitVec.ofBool s.faulted ++ s.phase.code

end Sys2Proof.Machine
end

