-- ==== Sys2Proof/Machine/TextMemory.lean ====
section
/-! DEFINITION. The host's text memory (spec/20_memory.md R60 to R62, R73): 4096 bytes, as a list of (address, byte)
pairs with addresses strictly rising and no entry equal to what an unlisted address reads as. -/

namespace Sys2Proof.Machine

/-- What an address nobody has written reads as. The spec gives the text memory no contents at power-on: DESIGN CHOICE
0x00, log entry 6. -/
def Memory.unlisted : Byte := 0x00

/-- The number of bytes (R60). -/
def Memory.size : Nat := 4096

/-- The byte at a key. -/
def Memory.lookup : Memory → Nat → Byte
  | [], _ => Memory.unlisted
  | (k, v) :: rest, a => if k = a then v else Memory.lookup rest a

/-- `MemRead(a, 1)`: never fails, no side effect (R62). -/
def Memory.read (m : Memory) (a : TextAddr) : Byte := Memory.lookup m a.toNat

/-- Put a byte in front of entries with greater keys, keeping the form. -/
def Memory.put (a : Nat) (b : Byte) (rest : Memory) : Memory :=
  if b = Memory.unlisted then rest else (a, b) :: rest

/-- Store a byte at a key, keeping the form. -/
def Memory.store : Memory → Nat → Byte → Memory
  | [], a, b => Memory.put a b []
  | (k, v) :: rest, a, b =>
    if a < k then Memory.put a b ((k, v) :: rest)
    else if a = k then Memory.put a b rest
    else (k, v) :: Memory.store rest a b

/-- The host writes one byte (R61, R77). -/
def Memory.write (m : Memory) (a : TextAddr) (b : Byte) : Memory := Memory.store m a.toNat b

/-- Keys from `lo` up, strictly rising, inside the address space, no entry with the unlisted value. -/
def Memory.wfFrom : Nat → Memory → Bool
  | _, [] => true
  | lo, (k, v) :: rest => decide (lo ≤ k) && decide (k < Memory.size) && v != Memory.unlisted && Memory.wfFrom (k + 1) rest

/-- The canonical form. -/
def Memory.wf (m : Memory) : Bool := Memory.wfFrom 0 m

end Sys2Proof.Machine
end

