-- ==== Sys2Proof/Machine/Ops.lean ====
section
/-! DEFINITION. The shared operations: drawing an answer, the two ways a command ends (spec/60_exceptions.md R224),
running the pseudocode up to the next collaborator call, completing the call in progress, starting a command, and what
the host's ports do. -/

namespace Sys2Proof.Machine

/-- Add an entry to the record. -/
def State.record (s : State) (e : Entry) : State := { s with log := s.log ++ [e] }

/-- Record an event of the trace (00_scope.md R17). -/
def State.emit (s : State) (e : Event) : State := s.record (.event e)

/-- The transport's answer to the next call: a draw (60_exceptions.md R229). DESIGN CHOICE, log entries 4 and 18: past the end of
its list every instance reads the one constant at its own count, where the spec leaves it to the transports whether the
answers of two instances are related. -/
def State.nextAnswer (s : State) : Bool :=
  match s.answers with
  | b :: _ => b
  | [] => Config.transportAnswer s.drawn

/-- The answer is used up. -/
def State.draw (s : State) : State := { s with answers := s.answers.tail, drawn := s.drawn + 1 }

/-- `respond OK` (60_exceptions.md R224). An INIT that succeeds has brought the LCD controller into step
(70_reset_and_hazards.md R267). -/
def respondOk (cmd : Instr) (s : State) : State :=
  { s with
    lastErr := .ok
    busy := false
    seq := none
    lcd := if cmd.isInit then .expectsHigh [] else s.lcd
    log := s.log ++ [.responded cmd ErrCode.ok.response] }

/-- `raise E(kind)` (60_exceptions.md R224): the one way an error ends a command. -/
def raise (cmd : Instr) (kind : ErrCode) (s : State) : State :=
  { s with
    faulted := s.faulted || kind.isTransport
    phase := if cmd.isInit then .faulted else s.phase
    lastErr := kind
    busy := false
    seq := none
    log := s.log ++ [.responded cmd kind.response] }

/-- Issue a collaborator call: it is in progress, and `k` is the pseudocode after it. -/
def await (cmd : Instr) (c : Call) (k : List Micro) (s : State) : State := { s with seq := some ⟨cmd, c, k⟩ }

/-- A command fails after it has sent: "the device may be left in an inconsistent visible state" (42_display_ops.md R179), any
value until an INIT succeeds (93_implementation_defined.md U5). A failed transport call does the same in its own effect. -/
def loseDisplay (s : State) : State := { s with lcd := .unknown }

/-- Run a command's pseudocode up to its next collaborator call, or to its end. Each line is the line of the spec's
pseudocode that its constructor names. -/
def proceed (cmd : Instr) : List Micro → State → State
  | [], s => respondOk cmd s
  | .gateReady :: k, s =>
    if s.params.requireReady && s.phase != .ready then raise cmd .notInitialized s else proceed cmd k s
  | .checkColumn col :: k, s =>
    if s.params.checkBounds && decide (s.params.numColumns ≤ col.toNat) then raise cmd .outOfRange s
    else proceed cmd k s
  | .busInit :: k, s => await cmd .busInit k s
  | .delay ms :: k, s => if ms = 0 then proceed cmd k s else await cmd (.delay ms) k s
  | .enable n rs :: k, s =>
    let v := nib s.params s.bl n rs
    await cmd (.write (raised s.params v)) (.release v :: k) s
  | .release v :: k, s => await cmd (.write v) k s
  | .setPhase p :: k, s => proceed cmd k { s with phase := p }
  | .setCfg i :: k, s => proceed cmd k { s with cfgIdx := i }
  | .setBl v :: k, s => proceed cmd k { s with bl := v }
  | .readChar a :: k, s => await cmd (.read a) k s
  | .nextChar a :: k, s => if a = lastText then raise cmd .outOfRange (loseDisplay s) else await cmd (.read (a + 1)) k s
  | .illegal :: _, s => raise cmd .illegalCommand s

/-- The effect of an answered `BusInit`: what bring-up does to the LCD is not specified (20_memory.md R71; log entry 16). -/
def afterBusInit (ok : Bool) (s : State) : State := { s.draw.emit (.init ok) with lcd := .unknown }

/-- The effect of an answered `BusWrite(v)` (20_memory.md R70). -/
def afterBusWrite (v : Byte) (ok : Bool) (s : State) : State :=
  { s.draw.emit (.write v ok) with
    latch := s.latch.afterWrite v ok
    lcd := s.lcd.afterWrite s.params v ok }

/-- The bytes address `a` has held since the running command was accepted and that host writes have replaced, newest first. -/
def State.replaced (s : State) (a : TextAddr) : List Byte := (s.raced.filter (fun x => x.1 == a)).map (fun x => x.2)

/-- The choice of a racing read: a draw (93_implementation_defined.md U12). DESIGN CHOICE, log entries 19 and 18: past the end
of its list every instance reads the one constant. -/
def State.nextPick (s : State) : Nat :=
  match s.picks with
  | n :: _ => n
  | [] => Config.racedPick s.log.length

/-- `MemRead(a, 1)` of the block: the byte the text memory holds (20_memory.md R62); where host writes have raced with the
running command, any byte the address has held since the command was accepted ("any value written so far", D36; DESIGN CHOICE, log entry
19). -/
def State.readByte (s : State) (a : TextAddr) : Byte := ((s.replaced a)[s.nextPick]?).getD (s.text.read a)

/-- A racing read uses up its choice. -/
def State.takePick (s : State) (a : TextAddr) : State :=
  { s with picks := if s.replaced a = [] then s.picks else s.picks.tail }

/-- The effect of an answered `MemRead`: none but its event (20_memory.md R72). -/
def afterMemRead (a : TextAddr) (s : State) : State := (s.takePick a).emit (.read a (s.readByte a))

/-- The call in progress completes: one event (00_scope.md R10). A failing call ends the command (60_exceptions.md
R227); after a `MemRead` PRINTS tests the character (42_display_ops.md R173). -/
def advance (r : Seq) (s : State) : State :=
  match r.call with
  | .busInit =>
    let ok := s.nextAnswer
    if ok then proceed r.cmd r.rest (afterBusInit ok s) else raise r.cmd .transportInitFailed (afterBusInit ok s)
  | .write v =>
    let ok := s.nextAnswer
    if ok then proceed r.cmd r.rest (afterBusWrite v ok s) else raise r.cmd .transportWriteFailed (afterBusWrite v ok s)
  | .delay ms => proceed r.cmd r.rest (s.emit (.delay ms))
  | .read a =>
    let c := s.readByte a
    if c = terminator then respondOk r.cmd (afterMemRead a s)
    else proceed r.cmd (sendMessage s.params c .data ++ .nextChar a :: r.rest) (afterMemRead a s)

/-- One step of the block alone: the call in progress completes; an idle block waits for a command word
(70_reset_and_hazards.md R261). -/
def blockStep (s : State) : Host.Outcome State Fault Refusal :=
  match s.busy, s.seq with
  | false, _ => .next s
  | true, some r => .next (advance r s)
  | true, none => .refused .sequencerUnset

/-- Start a command: `S.busy <- 1` (43_control_ops.md R203) and its pseudocode up to the first call. Every meaning goes
through here. No host write has raced with it yet. -/
def start (cmd : Instr) (program : List Micro) (s : State) : Host.Outcome State Fault Refusal :=
  if !s.params.valid then .refused .badParameters
  else if s.busy then .refused .portBusy
  else .next (proceed cmd program { s.record (.accepted cmd) with busy := true, raced := [] })

/-- The status port (43_control_ops.md R201): the word is returned, nothing else changes. -/
def readStatusPort (s : State) : State := s.record (.status s.statusWord)

/-- The host writes a byte of its text memory (20_memory.md R61, R77). While a command runs the write may race with it: the
byte it replaces is kept. -/
def hostWritesText (a : TextAddr) (b : Byte) (s : State) : State :=
  { s with
    text := s.text.write a b
    raced := if s.busy then (a, s.text.read a) :: s.raced else s.raced }

/-- The call a reset cuts off: the one in progress, if a command runs (70_reset_and_hazards.md R262). -/
def State.callInProgress (s : State) : Option Call :=
  if s.busy then s.seq.map (fun r => r.call) else none

/-- The one reset event, power-on or in mid-run (70_reset_and_hazards.md R260 to R263). Reset does not reach the expander or
the LCD, they are whatever they were, and a power-on leaves them unknown: "A model must not assume any value for them"
(R263; any value "at power-on and after reset", 93_implementation_defined.md U10). -/
def resetBlock (s : State) : State :=
  { s with
    phase := .uninit
    cfgIdx := 0
    bl := s.params.backlightReset
    faulted := false
    lastErr := .ok
    busy := false
    seq := none
    latch := .any
    lcd := .unknown
    log := s.log ++ [.reset s.callInProgress] }

end Sys2Proof.Machine
end

