-- ==== Sys2Proof/Machine/Control.lean ====
section
/-! DEFINITION. SETBL and the rejection of an illegal word (spec/43_control_ops.md R200, R202). -/

namespace Sys2Proof.Machine

/-- SETBL (R200): no gate, no event. -/
def execSetbl (v : Bool) (s : State) : Host.Outcome State Fault Refusal := start (.setbl v) [.setBl v] s

/-- An illegal word (R202): rejected with IllegalCommand. -/
def execReserved (w : Word) (s : State) : Host.Outcome State Fault Refusal := start (.reserved w) [.illegal] s

end Sys2Proof.Machine
end

