-- ==== Sys2Proof/Machine/Display.lean ====
section
/-! DEFINITION. The six display commands (spec/42_display_ops.md R171 to R176), each as its pseudocode. -/

namespace Sys2Proof.Machine

/-- R171. -/
def clearProgram (p : Params) : List Micro := .gateReady :: sendMessage p p.clrLcd .command

/-- R172. -/
def printcProgram (p : Params) (ch : Byte) : List Micro := .gateReady :: sendMessage p ch .data

/-- R173; the cursor message is SETCUR 0, 0's, with no bounds test. -/
def printsProgram (p : Params) (addr : TextAddr) : List Micro :=
  .gateReady :: (sendMessage p p.clrLcd .command ++ sendMessage p (cursorByte p .first 0) .command ++ [.readChar addr])

/-- R174. -/
def setcurProgram (p : Params) (row : Row) (col : Byte) : List Micro :=
  .gateReady :: .checkColumn col :: sendMessage p (cursorByte p row col) .command

/-- R175. -/
def curonProgram (p : Params) : List Micro := .gateReady :: sendMessage p (cursorOnByte p) .command

/-- R176. -/
def curoffProgram (p : Params) : List Micro := .gateReady :: sendMessage p (cursorOffByte p) .command

/-- CLEAR (R171). -/
def execClear (s : State) : Host.Outcome State Fault Refusal := start .clear (clearProgram s.params) s

/-- PRINTC (R172). -/
def execPrintc (ch : Byte) (s : State) : Host.Outcome State Fault Refusal :=
  start (.printc ch) (printcProgram s.params ch) s

/-- PRINTS (R173). -/
def execPrints (addr : TextAddr) (s : State) : Host.Outcome State Fault Refusal :=
  start (.prints addr) (printsProgram s.params addr) s

/-- SETCUR (R174). -/
def execSetcur (row : Row) (col : Byte) (s : State) : Host.Outcome State Fault Refusal :=
  start (.setcur row col) (setcurProgram s.params row col) s

/-- CURON (R175). -/
def execCuron (s : State) : Host.Outcome State Fault Refusal := start .curon (curonProgram s.params) s

/-- CUROFF (R176). -/
def execCuroff (s : State) : Host.Outcome State Fault Refusal := start .curoff (curoffProgram s.params) s

end Sys2Proof.Machine
end

