-- ==== Sys2Proof/Machine/Init.lean ====
section
/-! DEFINITION. INIT (spec/41_init.md R151). -/

namespace Sys2Proof.Machine

/-- Step 2 of R151, one bootstrap nibble: phase, nibble, delay. -/
def bootStep (p : Phase) (n : Nibble) (ms : Nat) : List Micro :=
  .setPhase p :: (sendNibble n .command ++ [.delay ms])

/-- Step 3 of R151, one configuration message: index, message. -/
def configStep (p : Params) (i : Fin 6) : List Micro := .setCfg i :: sendMessage p (p.cfgByte i) .command

/-- The pseudocode of R151. -/
def initProgram (p : Params) : List Micro :=
  [.setPhase .uninit, .setCfg 0, .busInit, .delay p.tInit]
    ++ bootStep .boot1 p.bootNibble1 p.tBoot1
    ++ bootStep .boot2 p.bootNibble2 p.tBoot2
    ++ bootStep .boot3 p.bootNibble3 p.tBoot3
    ++ [.setPhase .config]
    ++ configStep p 0 ++ configStep p 1 ++ configStep p 2 ++ configStep p 3 ++ configStep p 4 ++ configStep p 5
    ++ [.setPhase .ready]

/-- INIT: accepted in every phase, no gate (R150, R155). -/
def execInit (s : State) : Host.Outcome State Fault Refusal := start .init (initProgram s.params) s

end Sys2Proof.Machine
end

