-- ==== Sys2Proof/Machine/Dispatch.lean ====
section
/-! DEFINITION. The command cycle's case split (spec/43_control_ops.md R203): one arm per command. -/

namespace Sys2Proof.Machine

def exec (i : Instr) (s : State) : Host.Outcome State Fault Refusal :=
  match i with
  | .init => Sys2Proof.Machine.execInit s
  | .clear => Sys2Proof.Machine.execClear s
  | .printc ch => Sys2Proof.Machine.execPrintc ch s
  | .prints addr => Sys2Proof.Machine.execPrints addr s
  | .setcur row col => Sys2Proof.Machine.execSetcur row col s
  | .curon => Sys2Proof.Machine.execCuron s
  | .curoff => Sys2Proof.Machine.execCuroff s
  | .setbl v => Sys2Proof.Machine.execSetbl v s
  | .reserved w => Sys2Proof.Machine.execReserved w s

end Sys2Proof.Machine
end

