-- ==== Sys2Proof/Machine/Step.lean ====
section
/-! DEFINITION. One step of the machine. Either the host acts (a command accepted, a status read, a text write, a reset),
or the block completes the collaborator call in progress (spec/00_scope.md R10: one step per event). -/

namespace Sys2Proof.Machine

/-- One step. A command word is accepted only when the block is idle (43_control_ops.md R203); offered to a busy block it
waits and the block goes on (R204). Log entries 1 and 5. -/
def step (s : State) : Host.Outcome State Fault Refusal :=
  if !s.params.valid then .refused .badParameters
  else
    match s.inbox with
    | [] => blockStep s
    | .command w :: rest => if s.busy then blockStep s else exec (decode w) { s with inbox := rest }
    | .readStatus :: rest => .next (readStatusPort { s with inbox := rest })
    | .writeText a b :: rest => .next (hostWritesText a b { s with inbox := rest })
    | .reset :: rest => .next (resetBlock { s with inbox := rest })
    | .quiet :: rest => blockStep { s with inbox := rest }

/-- The same machine with a command word offered on an idle command port, so that the next step accepts and starts it.
Log entry 5 says how a program comes to run. -/
def State.withFetchWord (s : State) (nbits w : Nat) : State :=
  { s with
    inbox := .command (BitVec.ofNat 16 (w % 2 ^ nbits)) :: s.inbox
    busy := false
    seq := none }

end Sys2Proof.Machine
end

