-- ==== Sys2Proof/Machine/Assembler.lean ====
section
/-! DEFINITION. The textual form of host commands and text directives (spec/30_encoding.md R104). A line becomes an item,
an item becomes a command word or bytes of text memory. Log entry 17. -/

namespace Sys2Proof.Machine

/-- One line of R104, its operands as the numbers written. -/
inductive AsmItem where
  | init
  | clear
  | printc (ch : Nat)
  | prints (addr : Nat)
  | setcur (row col : Nat)
  | curon
  | curoff
  | setbl (v : Nat)
  /-- `.org a` -/
  | org (a : Nat)
  /-- `.asciz "s"` -/
  | asciz (s : List Byte)
deriving DecidableEq, Repr

/-- Why a line assembles to nothing. -/
inductive AsmError where
  /-- "An operand out of its field's range ... is an assembly error, and no word is produced" (R104). -/
  | outOfRange
  /-- A text directive reaches past 0xFFF. -/
  | pastTop
  /-- The line is not of the form R104 gives. -/
  | badLine
deriving DecidableEq, Repr

/-- The word of a command line, by R104's table; none for a text directive. -/
def AsmItem.word : AsmItem → Except AsmError (Option Word)
  | .init => .ok (some 0x0000)
  | .clear => .ok (some 0x1000)
  | .printc ch => if ch > 255 then .error .outOfRange else .ok (some (0x2000 ||| BitVec.ofNat 16 ch))
  | .prints addr => if addr > 4095 then .error .outOfRange else .ok (some (0x3000 ||| BitVec.ofNat 16 addr))
  | .setcur row col =>
    if row > 1 ∨ col > 255 then .error .outOfRange
    else .ok (some (0x4000 ||| (BitVec.ofNat 16 row <<< 8) ||| BitVec.ofNat 16 col))
  | .curon => .ok (some 0x5000)
  | .curoff => .ok (some 0x6000)
  | .setbl v => if v > 1 then .error .outOfRange else .ok (some (0x7000 ||| BitVec.ofNat 16 v))
  | .org _ => .ok none
  | .asciz _ => .ok none

/-- What assembling has produced: the words in order, the text memory, and the text address. -/
structure AsmOut where
  words : List Word
  text : Memory
  at_ : Nat
deriving DecidableEq, Repr

/-- Before the first line: no word, no text, text address 0. -/
def AsmOut.empty : AsmOut := ⟨[], [], 0⟩

/-- Place bytes from a text address on. -/
def placeBytes (m : Memory) (a : Nat) : List Byte → Memory
  | [] => m
  | b :: bs => placeBytes (m.store a b) (a + 1) bs

/-- One item's effect. `.org` sets the text address; `.asciz` places the bytes and then 0x00 (R104). DESIGN CHOICE, log
entry 17: after `.asciz` the text address stands past the terminator, so a second `.asciz` follows the first. -/
def AsmOut.add (o : AsmOut) (i : AsmItem) : Except AsmError AsmOut :=
  match i with
  | .org a => if a > 4095 then .error .outOfRange else .ok { o with at_ := a }
  | .asciz s =>
    if o.at_ + s.length > 4095 then .error .pastTop
    else .ok { o with text := placeBytes o.text o.at_ (s ++ [0x00]), at_ := o.at_ + s.length + 1 }
  | i =>
    match i.word with
    | .error e => .error e
    | .ok none => .ok o
    | .ok (some w) => .ok { o with words := o.words ++ [w] }

/-- Items in order; the first error is the result. -/
def assembleItems : List AsmItem → AsmOut → Except AsmError AsmOut
  | [], o => .ok o
  | i :: is, o =>
    match o.add i with
    | .error e => .error e
    | .ok o' => assembleItems is o'

/-- Blanks are spaces, tabs and carriage returns. -/
def isBlank (c : Char) : Bool := c.toNat == 32 || c.toNat == 9 || c.toNat == 13

/-- Without the blanks at both ends. -/
def trimBlanks (cs : List Char) : List Char :=
  ((cs.dropWhile isBlank).reverse.dropWhile isBlank).reverse

/-- The single quote. -/
def isQuote (c : Char) : Bool := c.toNat == 39

/-- The double quote. -/
def isDoubleQuote (c : Char) : Bool := c.toNat == 34

/-- The line up to its `;` comment; the flag says that a string is open. DESIGN CHOICE, log entry 17: a `;` in a string or
between the two single quotes of one character starts no comment, and any character can stand between them, the single
quote among them. -/
def stripComment : Bool → List Char → List Char
  | _, [] => []
  | true, c :: cs => c :: stripComment (!isDoubleQuote c) cs
  | false, q :: c :: q' :: cs =>
    if isQuote q && isQuote q' then q :: c :: q' :: stripComment false cs
    else if q = ';' then []
    else q :: stripComment (isDoubleQuote q) (c :: q' :: cs)
  | false, c :: cs => if c = ';' then [] else c :: stripComment (isDoubleQuote c) cs

/-- The value of a digit in a base up to 16. -/
def digitValue (base : Nat) (c : Char) : Option Nat :=
  let n := c.toNat
  let d :=
    if 48 ≤ n ∧ n ≤ 57 then n - 48
    else if 65 ≤ n ∧ n ≤ 70 then n - 55
    else if 97 ≤ n ∧ n ≤ 102 then n - 87
    else base
  if d < base then some d else none

/-- A row of digits, most significant first. -/
def digitsValue (base : Nat) : Nat → List Char → Option Nat
  | acc, [] => some acc
  | acc, c :: cs =>
    match digitValue base c with
    | none => none
    | some d => digitsValue base (acc * base + d) cs

/-- A decimal or `0x` hexadecimal number (R104). -/
def numberValue (cs : List Char) : Option Nat :=
  match cs with
  | [] => none
  | '0' :: 'x' :: d :: ds => digitsValue 16 0 (d :: ds)
  | d :: ds => digitsValue 10 0 (d :: ds)

/-- A number, or a character between quotes, which means its ASCII byte (R104). DESIGN CHOICE, log entry 17: every operand
may be written as a character, not that of PRINTC alone. -/
def operandValue (cs : List Char) : Option Nat :=
  match cs with
  | [q, c, q'] =>
    if isQuote q && isQuote q' then (if c.toNat < 128 then some c.toNat else none) else numberValue [q, c, q']
  | cs => numberValue cs

/-- The operands between commas; a comma inside `','` is a character. -/
def splitOperands (acc : List Char) : List Char → List (List Char)
  | [] => [acc.reverse]
  | q :: c :: q' :: cs =>
    if isQuote q && isQuote q' then splitOperands (q' :: c :: q :: acc) cs
    else if q = ',' then acc.reverse :: splitOperands [] (c :: q' :: cs)
    else splitOperands (q :: acc) (c :: q' :: cs)
  | c :: cs => if c = ',' then acc.reverse :: splitOperands [] cs else splitOperands (c :: acc) cs

/-- All of a list of options, or none. -/
def allSome : List (Option Nat) → Option (List Nat)
  | [] => some []
  | none :: _ => none
  | some n :: r =>
    match allSome r with
    | none => none
    | some ns => some (n :: ns)

/-- The operand numbers of a line. -/
def operands (cs : List Char) : Option (List Nat) :=
  match trimBlanks cs with
  | [] => some []
  | cs => allSome ((splitOperands [] cs).map (fun o => operandValue (trimBlanks o)))

/-- The bytes of a string up to its closing double quote, which must end the line; ASCII only. -/
def stringBytes : List Char → Option (List Byte)
  | [] => none
  | c :: cs =>
    if isDoubleQuote c then (if cs = [] then some [] else none)
    else if c.toNat < 128 then (stringBytes cs).map (fun bs => BitVec.ofNat 8 c.toNat :: bs)
    else none

/-- A command or directive with its operand numbers. -/
def itemOf (name : List Char) (ops : List Nat) : Option AsmItem :=
  if name = ['I', 'N', 'I', 'T'] then (match ops with | [] => some .init | _ => none)
  else if name = ['C', 'L', 'E', 'A', 'R'] then (match ops with | [] => some .clear | _ => none)
  else if name = ['P', 'R', 'I', 'N', 'T', 'C'] then (match ops with | [c] => some (.printc c) | _ => none)
  else if name = ['P', 'R', 'I', 'N', 'T', 'S'] then (match ops with | [a] => some (.prints a) | _ => none)
  else if name = ['S', 'E', 'T', 'C', 'U', 'R'] then (match ops with | [r, k] => some (.setcur r k) | _ => none)
  else if name = ['C', 'U', 'R', 'O', 'N'] then (match ops with | [] => some .curon | _ => none)
  else if name = ['C', 'U', 'R', 'O', 'F', 'F'] then (match ops with | [] => some .curoff | _ => none)
  else if name = ['S', 'E', 'T', 'B', 'L'] then (match ops with | [v] => some (.setbl v) | _ => none)
  else if name = ['.', 'o', 'r', 'g'] then (match ops with | [a] => some (.org a) | _ => none)
  else none

/-- The item of one line, its mnemonic first; no item for a line of blanks or comment only. -/
def parseLine (line : List Char) : Except AsmError (Option AsmItem) :=
  match trimBlanks (stripComment false line) with
  | [] => .ok none
  | cs =>
    let name := cs.takeWhile (fun c => !isBlank c)
    let rest := trimBlanks (cs.dropWhile (fun c => !isBlank c))
    if name = ['.', 'a', 's', 'c', 'i', 'z'] then
      match rest with
      | [] => .error .badLine
      | q :: body =>
        if isDoubleQuote q then
          match stringBytes body with
          | none => .error .badLine
          | some bs => .ok (some (.asciz bs))
        else .error .badLine
    else
      match operands rest with
      | none => .error .badLine
      | some ops =>
        match itemOf name ops with
        | none => .error .badLine
        | some i => .ok (some i)

/-- A program, line by line. -/
def assemble : List (List Char) → AsmOut → Except AsmError AsmOut
  | [], o => .ok o
  | l :: ls, o =>
    match parseLine l with
    | .error e => .error e
    | .ok none => assemble ls o
    | .ok (some i) =>
      match o.add i with
      | .error e => .error e
      | .ok o' => assemble ls o'

end Sys2Proof.Machine
end

