-- ==== Sys2Proof/Machine/Instances.lean ====
section
/-! DEFINITION. Several blocks, one per display (spec/10_state.md R49, spec/60_exceptions.md R237): each has a state of its
own, and one of them steps at a time. DESIGN CHOICE, log entry 18: each has a text memory of its own, where the spec does not
say whether the blocks of one host read one text memory or one each; and past the ends of their lists all read the same
constants for answers and racing reads, where the spec leaves the transports' answers to the transports (R229). -/

namespace Sys2Proof.Machine

/-- One step of the k-th block of a list of blocks. -/
def stepInstance (k : Nat) (blocks : List State) : Host.Outcome (List State) Fault Refusal :=
  match blocks[k]? with
  | none => .next blocks
  | some s =>
    match step s with
    | .next t => .next (blocks.set k t)
    | .fault r => .fault r
    | .refused r => .refused r

end Sys2Proof.Machine
end

