-- ==== Sys2Proof/Machine/Trace.lean ====
section
/-! DEFINITION. Reading the record (spec/00_scope.md R11), and the calls each command makes as the spec's trace rules
list them: `Frame` (R18), a message (spec/40_encoder.md R136), INIT (spec/41_init.md R154), PRINTS (spec/42_display_ops.md
R173, R180). `step` does not use this file. -/

namespace Sys2Proof.Machine

/-- The event in an entry, if it is one. -/
def Entry.event? : Entry → Option Event
  | .event e => some e
  | .accepted _ => none
  | .responded _ _ => none
  | .status _ => none
  | .reset _ => none

/-- The event trace (00_scope.md R11). -/
def State.eventTrace (s : State) : List Event := s.log.filterMap Entry.event?

/-- Whether an event is a `Delay`. -/
def Event.isDelay : Event → Bool
  | .delay _ => true
  | .init _ => false
  | .write _ _ => false
  | .read _ _ => false

/-- The bus trace: "the trace with its `Delay` events removed" (00_scope.md R11; log entry 14). -/
def State.busTrace (s : State) : List Event := s.eventTrace.filter (fun e => !e.isDelay)

/-- Whether an event is a transport call that answered `false`. -/
def Event.failed : Event → Bool
  | .init ok => !ok
  | .write _ ok => !ok
  | .delay _ => false
  | .read _ _ => false

/-- Whether an event used up an answer of the transport. -/
def Event.isTransport : Event → Bool
  | .init _ => true
  | .write _ _ => true
  | .delay _ => false
  | .read _ _ => false

/-- One entry's effect on "a transport call has returned `false` since reset" (10_state.md R48). -/
def failedStep (b : Bool) : Entry → Bool
  | .event e => b || e.failed
  | .reset _ => false
  | .accepted _ => b
  | .responded _ _ => b
  | .status _ => b

/-- Whether a transport call has returned `false` since reset. -/
def failedSinceReset (log : List Entry) : Bool := log.foldl failedStep false

/-- One entry's effect on "the response of the most recent command to end" (10_state.md R37). -/
def responseStep (r : Nibble) : Entry → Nibble
  | .responded _ r' => r'
  | .reset _ => 0
  | .event _ => r
  | .accepted _ => r
  | .status _ => r

/-- The last response since reset, 0 if there is none. -/
def lastResponse (log : List Entry) : Nibble := log.foldl responseStep 0

/-- What became of the most recent INIT since reset (10_state.md R47). -/
inductive InitStatus where
  | never | running | succeeded | failed
deriving DecidableEq, Repr

/-- One entry's effect on it. -/
def initStep (st : InitStatus) : Entry → InitStatus
  | .accepted i => if i.isInit then .running else st
  | .responded i r => if i.isInit then (if r = 0 then .succeeded else .failed) else st
  | .reset _ => .never
  | .event _ => st
  | .status _ => st

/-- The status of the most recent INIT since reset. -/
def initStatus (log : List Entry) : InitStatus := log.foldl initStep .never

/-- `Frame(v)` (00_scope.md R18), as calls. -/
def frameCalls (p : Params) (v : Byte) : List Call := [.write (raised p v), .write v]

/-- A delay of 0 is not issued at all (00_scope.md R17). -/
def delayCalls (ms : Nat) : List Call := if ms = 0 then [] else [.delay ms]

/-- A nibble transfer (40_encoder.md R132). -/
def nibbleCalls (p : Params) (bl : Bool) (n : Nibble) (rs : RegSelect) : List Call := frameCalls p (nib p bl n rs)

/-- A message: high nibble, low nibble, settle (40_encoder.md R133, R136). -/
def messageCalls (p : Params) (bl : Bool) (b : Byte) (rs : RegSelect) : List Call :=
  nibbleCalls p bl (highNibble b) rs ++ nibbleCalls p bl (lowNibble b) rs ++ delayCalls (settle p b rs)

/-- The calls of INIT (41_init.md R154). -/
def initCalls (p : Params) (bl : Bool) : List Call :=
  .busInit :: (delayCalls p.tInit
    ++ nibbleCalls p bl p.bootNibble1 .command ++ delayCalls p.tBoot1
    ++ nibbleCalls p bl p.bootNibble2 .command ++ delayCalls p.tBoot2
    ++ nibbleCalls p bl p.bootNibble3 .command ++ delayCalls p.tBoot3
    ++ messageCalls p bl p.functionSet .command
    ++ messageCalls p bl p.displayControl .command
    ++ messageCalls p bl p.returnHome .command
    ++ messageCalls p bl (p.entryMode ||| p.autoincrement) .command
    ++ messageCalls p bl (p.displayControl ||| p.displayOn) .command
    ++ messageCalls p bl p.clrLcd .command)

/-- Whether a call draws an answer of the transport. -/
def Call.isTransport : Call → Bool
  | .busInit => true
  | .write _ => true
  | .delay _ => false
  | .read _ => false

/-- Calls that are all in progress with these values of `S.phase` and `S.cfg_idx`. -/
def stage (ph : Phase) (i : Fin 6) (cs : List Call) : List (Call × Phase × Fin 6) := cs.map (fun c => (c, ph, i))

/-- The calls of INIT (41_init.md R154), each with the `S.phase` and `S.cfg_idx` it is in progress with (41_init.md R151, R152):
UNINIT up to the delay `T_INIT`, one boot phase for each bootstrap nibble and its delay, CONFIG with the message's index. -/
def initStages (p : Params) (bl : Bool) : List (Call × Phase × Fin 6) :=
  stage .uninit 0 (.busInit :: delayCalls p.tInit)
    ++ stage .boot1 0 (nibbleCalls p bl p.bootNibble1 .command ++ delayCalls p.tBoot1)
    ++ stage .boot2 0 (nibbleCalls p bl p.bootNibble2 .command ++ delayCalls p.tBoot2)
    ++ stage .boot3 0 (nibbleCalls p bl p.bootNibble3 .command ++ delayCalls p.tBoot3)
    ++ stage .config 0 (messageCalls p bl p.functionSet .command)
    ++ stage .config 1 (messageCalls p bl p.displayControl .command)
    ++ stage .config 2 (messageCalls p bl p.returnHome .command)
    ++ stage .config 3 (messageCalls p bl (p.entryMode ||| p.autoincrement) .command)
    ++ stage .config 4 (messageCalls p bl (p.displayControl ||| p.displayOn) .command)
    ++ stage .config 5 (messageCalls p bl p.clrLcd .command)

/-- The calls of the text loop of PRINTS from `a`, with `n` bytes left up to the top, and the code it ends with (42_display_ops.md
R173). -/
def textCalls (p : Params) (bl : Bool) (m : Memory) : Nat → TextAddr → List Call × ErrCode
  | 0, _ => ([], .outOfRange)
  | n + 1, a =>
    if m.read a = terminator then ([.read a], .ok)
    else
      let r := textCalls p bl m n (a + 1)
      (.read a :: (messageCalls p bl (m.read a) .data ++ r.1), r.2)

/-- The gate of R170: whether a display command is rejected. -/
def gateCloses (s : State) : Bool := s.params.requireReady && s.phase != .ready

/-- The column test of R174: whether SETCUR is rejected. -/
def columnOut (p : Params) (col : Byte) : Bool := p.checkBounds && decide (p.numColumns ≤ col.toNat)

/-- A display command's calls behind the gate. -/
def gated (s : State) (r : List Call × ErrCode) : List Call × ErrCode := if gateCloses s then ([], .notInitialized) else r

/-- Every call a command makes if no call fails, and the code it then ends with. -/
def plan (i : Instr) (s : State) : List Call × ErrCode :=
  match i with
  | .init => (initCalls s.params s.bl, .ok)
  | .clear => gated s (messageCalls s.params s.bl s.params.clrLcd .command, .ok)
  | .printc ch => gated s (messageCalls s.params s.bl ch .data, .ok)
  | .prints addr =>
    let t := textCalls s.params s.bl s.text (Memory.size - addr.toNat) addr
    gated s (messageCalls s.params s.bl s.params.clrLcd .command
      ++ (messageCalls s.params s.bl (s.params.setCursor ||| s.params.rowBase0) .command ++ t.1), t.2)
  | .setcur row col =>
    gated s (if columnOut s.params col then ([], .outOfRange)
      else (messageCalls s.params s.bl (cursorByte s.params row col) .command, .ok))
  | .curon => gated s (messageCalls s.params s.bl (cursorOnByte s.params) .command, .ok)
  | .curoff => gated s (messageCalls s.params s.bl (cursorOffByte s.params) .command, .ok)
  | .setbl _ => ([], .ok)
  | .reserved _ => ([], .illegalCommand)

/-- The answer the transport will give to the k-th call from now. -/
def State.answerAt (s : State) (k : Nat) : Bool :=
  match s.answers[k]? with
  | some b => b
  | none => Config.transportAnswer (s.drawn + k)

/-- The events of a list of calls, stopping at the first transport call that answers `false`, and the code the command
ends with (60_exceptions.md R226, R227). The k-th transport call gets the answer `ans k`. -/
def play (ans : Nat → Bool) (m : Memory) (e : ErrCode) : List Call → Nat → List Event × ErrCode
  | [], _ => ([], e)
  | .busInit :: cs, k =>
    if ans k then ((.init true :: (play ans m e cs (k + 1)).1), (play ans m e cs (k + 1)).2)
    else ([.init false], .transportInitFailed)
  | .write v :: cs, k =>
    if ans k then ((.write v true :: (play ans m e cs (k + 1)).1), (play ans m e cs (k + 1)).2)
    else ([.write v false], .transportWriteFailed)
  | .delay ms :: cs, k => (.delay ms :: (play ans m e cs k).1, (play ans m e cs k).2)
  | .read a :: cs, k => (.read a (m.read a) :: (play ans m e cs k).1, (play ans m e cs k).2)

/-- The whole course of a command from a state: its events and the code it ends with. -/
def course (i : Instr) (s : State) : List Event × ErrCode := play s.answerAt s.text (plan i s).2 (plan i s).1 0

/-- The event of a call when the transport answers `true`. -/
def Call.done (m : Memory) : Call → Event
  | .busInit => .init true
  | .write v => .write v true
  | .delay ms => .delay ms
  | .read a => .read a (m.read a)

/-- The expander latch after a list of events (10_state.md R44). -/
def Latch.afterEvents (l : Latch) : List Event → Latch
  | [] => l
  | .write v ok :: es => (l.afterWrite v ok).afterEvents es
  | .init _ :: es => l.afterEvents es
  | .delay _ :: es => l.afterEvents es
  | .read _ _ :: es => l.afterEvents es

/-- The LCD controller after a list of events (10_state.md R44). -/
def Lcd.afterEvents (p : Params) (l : Lcd) : List Event → Lcd
  | [] => l
  | .write v ok :: es => (l.afterWrite p v ok).afterEvents p es
  | .init _ :: es => Lcd.afterEvents p .unknown es
  | .delay _ :: es => l.afterEvents p es
  | .read _ _ :: es => l.afterEvents p es

/-- The LCD controller after a whole command with these events and this end (10_state.md R44): in step after a complete INIT
(70_reset_and_hazards.md R267); unknown after a command that failed once it had issued anything (93_implementation_defined.md
U4, U5); else as the events leave it. -/
def Lcd.afterCommand (p : Params) (l : Lcd) (i : Instr) (r : List Event × ErrCode) : Lcd :=
  if r.2 = .ok then (if i.isInit then .expectsHigh [] else l.afterEvents p r.1)
  else if r.1 = [] then l else .unknown

/-- The events of a message whose four writes all succeed (40_encoder.md R136), with its settle delay if there is one. -/
def messageEvents (p : Params) (bl : Bool) (b : Byte) (rs : RegSelect) : List Event :=
  [ .write (raised p (nib p bl (highNibble b) rs)) true, .write (nib p bl (highNibble b) rs) true,
    .write (raised p (nib p bl (lowNibble b) rs)) true, .write (nib p bl (lowNibble b) rs) true ]
    ++ (if settle p b rs = 0 then [] else [.delay (settle p b rs)])

end Sys2Proof.Machine
end

