-- ==== Sys2Proof/Safety.lean ====
section
/-! DEFINITION. What holds of every state a run reaches: the invariants of spec/10_state.md R33, R34, R36, R37, R38, R39,
R47 and R48, and the whole enable pulse of spec/30_encoding.md R98. -/

namespace Sys2Proof.Machine

/-- Statements INIT's pseudocode may hold. -/
def Micro.inInit : Micro → Bool
  | .busInit => true
  | .setPhase _ => true
  | .setCfg _ => true
  | .delay _ => true
  | .enable _ _ => true
  | .release _ => true
  | .gateReady => false
  | .checkColumn _ => false
  | .setBl _ => false
  | .readChar _ => false
  | .nextChar _ => false
  | .illegal => false

/-- Statements a display command's pseudocode may hold (42_display_ops.md R171 to R176). -/
def Micro.inDisplay : Micro → Bool
  | .gateReady => true
  | .checkColumn _ => true
  | .delay _ => true
  | .enable _ _ => true
  | .release _ => true
  | .readChar _ => true
  | .nextChar _ => true
  | .busInit => false
  | .setPhase _ => false
  | .setCfg _ => false
  | .setBl _ => false
  | .illegal => false

/-- `S.cfg_idx` after the rest of a pseudocode has run from the value `i`. -/
def lastCfg (i : Fin 6) : List Micro → Fin 6
  | [] => i
  | .setCfg j :: k => lastCfg j k
  | _ :: k => lastCfg i k

/-- The rest of INIT's pseudocode ends in READY with `S.cfg_idx` = 5 (41_init.md R151). -/
def InitRest (i : Fin 6) (k : List Micro) : Prop :=
  k.all Micro.inInit = true ∧ k.getLast? = some (.setPhase .ready) ∧ lastCfg i k = 5

/-- Where no INIT runs, `S.phase` says what became of the last one since reset (10_state.md R47), and after a complete
INIT `S.cfg_idx` is 5 (R34). -/
def PhaseSettled (s : State) : Prop :=
  match initStatus s.log with
  | .never => s.phase = .uninit
  | .running => False
  | .succeeded => s.phase = .ready ∧ s.cfgIdx = 5
  | .failed => s.phase = .faulted

/-- What holds of the sequencer while a command runs. -/
def SeqInv (s : State) (r : Seq) : Prop :=
  r.call ≠ .delay 0
    ∧ (r.cmd.isInit = true →
        initStatus s.log = .running ∧ InitRest s.cfgIdx r.rest ∧ ∀ a, r.call ≠ .read a)
    ∧ (r.cmd.isInit = false →
        PhaseSettled s ∧ r.rest.all Micro.inDisplay = true ∧ r.call ≠ .busInit)

/-- The busy bit and the sequencer agree (10_state.md R38, R39). -/
def SequencerInv (s : State) : Prop :=
  match s.seq with
  | some r => s.busy = true ∧ SeqInv s r
  | none => s.busy = false ∧ PhaseSettled s

/-- The invariant every step keeps. -/
def Inv (s : State) : Prop :=
  s.params.valid = true
    ∧ s.text.wf = true
    ∧ s.faulted = failedSinceReset s.log
    ∧ s.lastErr.response = lastResponse s.log
    ∧ SequencerInv s

/-- Whether a statement is a release write: a command's own pseudocode holds none, only the enable write puts one in. -/
def Micro.isRelease : Micro → Bool
  | .release _ => true
  | .busInit => false
  | .setPhase _ => false
  | .setCfg _ => false
  | .gateReady => false
  | .checkColumn _ => false
  | .delay _ => false
  | .enable _ _ => false
  | .setBl _ => false
  | .readChar _ => false
  | .nextChar _ => false
  | .illegal => false

/-- The pulse in progress is whole (40_encoder.md R131, 30_encoding.md R98): a write with the enable bit set is followed by
the write of the same byte with it clear, and a write with the enable bit clear directly follows the event of its own
enable write. -/
def PulseInv (s : State) : Prop :=
  match s.seq with
  | none => True
  | some r =>
    match r.call with
    | .write v =>
      (∃ u, enableSet s.params u = false ∧ v = raised s.params u ∧ ∃ k, r.rest = .release u :: k
          ∧ k.all (fun m => !m.isRelease) = true)
        ∨ (enableSet s.params v = false ∧ s.eventTrace.getLast? = some (.write (raised s.params v) true)
          ∧ r.rest.all (fun m => !m.isRelease) = true)
    | .busInit => r.rest.all (fun m => !m.isRelease) = true
    | .delay _ => r.rest.all (fun m => !m.isRelease) = true
    | .read _ => r.rest.all (fun m => !m.isRelease) = true

/-- The block is idle, its parameters are legal, and the host does nothing but issue the command at hand. -/
structure Undisturbed (s : State) : Prop where
  valid : s.params.valid = true
  idle : s.busy = false
  alone : s.inbox = []

/-- What no command but INIT, SETBL and the host's own writes may change: everything but the error record, the busy bit,
the sequencer, the draws, the environment and the record (42_display_ops.md R178). -/
structure SameRegisters (s u : State) : Prop where
  params : u.params = s.params
  phase : u.phase = s.phase
  cfgIdx : u.cfgIdx = s.cfgIdx
  bl : u.bl = s.bl
  text : u.text = s.text
  inbox : u.inbox = s.inbox

/-- The state after a command that ends at once, with no event: accepted and answered. -/
def answeredAtOnce (i : Instr) (e : ErrCode) (s : State) : State :=
  { s with
    lastErr := e
    seq := none
    raced := []
    log := s.log ++ [.accepted i, .responded i e.response] }

/-- The state after a command that sends one message, all of whose writes succeed. Whatever is not named is as before. -/
def messageDone (i : Instr) (b : Byte) (rs : RegSelect) (s : State) : State :=
  { s with
    lastErr := .ok
    seq := none
    raced := []
    answers := s.answers.drop 4
    drawn := s.drawn + 4
    latch := .oneOf [nib s.params s.bl (lowNibble b) rs]
    lcd := (s.lcd.latchNibble (nib s.params s.bl (highNibble b) rs)).latchNibble (nib s.params s.bl (lowNibble b) rs)
    log := s.log ++ (.accepted i :: ((messageEvents s.params s.bl b rs).map .event ++ [.responded i 0x0])) }

end Sys2Proof.Machine
end

