-- ==== Sys2Proof/Certificates/Slice0/Obligations.lean ====
section
/-! DEFINITION. The statements for the provers. Each docstring names the rule of spec/ it formalises. -/

open Sys2Proof Sys2Proof.Machine

/-- Words written out from 30_encoding.md R92 decode to the command they stand for. -/
def Obligations.WrittenOutWordsDecode : Prop :=
  decode 0b0000000000000000 = .init ∧ decode 0b0001000000000000 = .clear ∧ decode 0b0010000001000001 = .printc 0x41
    ∧ decode 0b0011000100000010 = .prints 0x102 ∧ decode 0b0100000100000101 = .setcur .second 5
    ∧ decode 0b0101000000000000 = .curon ∧ decode 0b0110000000000000 = .curoff
    ∧ decode 0b0111000000000001 = .setbl true ∧ decode 0b0100001000000000 = .reserved 0x4200
    ∧ decode 0b1001000000000000 = .reserved 0x9000

/-- Decoding the word of a well-formed command gives the command back, every operand at every value. -/
def Obligations.DecodeOfEncodeIsIdentity : Prop :=
  ∀ i : Instr, i.WellFormed → decode (encode i) = i

/-- The decoder is total on 16-bit words and drops no bit: the decoded command is well formed and its word is the word. -/
def Obligations.EveryWordIsOneCommand : Prop :=
  ∀ w : Word, (decode w).WellFormed ∧ encode (decode w) = w

/-- 30_encoding.md R92 and R94: the decoder (R107), the pattern rows and the reserved bits of the formats say the same of
every word, and no two rows match the same word. -/
def Obligations.DecoderAgreesWithPatternsAndFormats : Prop :=
  ∀ w : Word, (decode w).row = rowOf w ∧ (rowOf w = none ↔ isIllegal w = true)
    ∧ (isIllegal w = true ↔ decode w = .reserved w)
    ∧ ∀ p ∈ patterns, ∀ q ∈ patterns, p.fits w = true → q.fits w = true → p = q

/-- 43_control_ops.md R202: a word with `OP` 0x8 to 0xF, or with a reserved bit set, is rejected with response 0xD and only
`S.last_err` changes; whatever the phase, so it comes before the gate. `s.inbox`, the log and the emptied list of racing
writes are the model's own (log entries 5, 10 and 19). -/
def Obligations.IllegalWordIsRejected : Prop :=
  (∀ (s : State) (w : Word) (rest : List HostAction), isIllegal w = true → s.params.valid = true → s.busy = false →
    s.inbox = .command w :: rest →
      step s = .next (answeredAtOnce (.reserved w) .illegalCommand { s with inbox := rest }))
  ∧ (∀ w : Word, isIllegal w = true ↔ 0x8 ≤ (w.extractLsb' 12 4).toNat
      ∨ ∃ f, formatOf (w.extractLsb' 12 4) = some f ∧ w.extractLsb' 0 12 &&& f.reservedBits ≠ 0)
  ∧ ErrCode.illegalCommand.code = 5 ∧ ErrCode.illegalCommand.response = 0xD
  ∧ isIllegal 0x8000 = true ∧ isIllegal 0xFFFF = true ∧ isIllegal 0x0001 = true ∧ isIllegal 0x4200 = true
  ∧ isIllegal 0x9000 = true ∧ isIllegal 0x3FFF = false

/-- Executing the illegal-command instruction completes with its rejection (43_control_ops.md R202). The record and the emptied list of
racing writes in `answeredAtOnce` are the model's own (log entries 10 and 19). -/
def Obligations.ReservedCompletes : Prop :=
  ∀ (s : State) (w : Word), s.params.valid = true → s.busy = false →
    exec (.reserved w) s = .next (answeredAtOnce (.reserved w) .illegalCommand s)

/-- 10_state.md R46: the registers, and the status word 0x0010 (43_control_ops.md R201), right after power-on. Memory,
inputs and record are empty and the environment is unknown (70_reset_and_hazards.md R261, R263). The model's own choices: no
sequencer held (log entry 9; R46 calls those registers unspecified), the empty memory, inputs, answers and record (log
entries 6, 5, 4 and 10), no racing write and no choice of a racing read (log entry 19), the form of the environment (log
entries 7 and 8), the default parameters (log entry 15). -/
def Obligations.StateAfterPowerOn : Prop :=
  State.reset.phase = .uninit ∧ State.reset.cfgIdx = 0 ∧ State.reset.bl = State.reset.params.backlightReset
    ∧ State.reset.faulted = false ∧ State.reset.lastErr = .ok ∧ State.reset.busy = false ∧ State.reset.seq = none
    ∧ State.reset.text = [] ∧ State.reset.raced = [] ∧ State.reset.picks = [] ∧ State.reset.inbox = [] ∧ State.reset.answers = [] ∧ State.reset.drawn = 0
    ∧ State.reset.log = [] ∧ State.reset.eventTrace = [] ∧ State.reset.latch = .any ∧ State.reset.lcd = .unknown
    ∧ State.reset.statusWord = 0x0010

/-- 70_reset_and_hazards.md R260: reset at any time sets every visible register to its reset value, and it is the
only event that clears `S.faulted`. That nothing is held in the sequencer after it is the model's choice (log entry 9). -/
def Obligations.ResetSetsRegistersAndAloneClearsFaulted : Prop :=
  (∀ (s : State) (rest : List HostAction), s.params.valid = true → s.inbox = .reset :: rest →
    ∃ t, step s = .next t ∧ t.phase = .uninit ∧ t.cfgIdx = 0 ∧ t.bl = s.params.backlightReset ∧ t.faulted = false
      ∧ t.lastErr = .ok ∧ t.busy = false ∧ t.seq = none)
  ∧ (∀ s t : State, step s = .next t → s.faulted = true → t.faulted = false → ∃ rest, s.inbox = .reset :: rest)

/-- 70_reset_and_hazards.md R261 to R263: reset issues no call and returns no response, leaves the block idle and the text
memory and the parameters as they were, and nothing is assumed of the expander and the LCD after it: whatever the expander
may have held it may still hold, and a write the reset cut off may have reached it or not. The model's own choices: the mark
with the cut call on the record (log entries 10 and 20), the forms of latch and LCD (log entries 7 and 8), the parameters as
a constant field (log entry 2), the host's list, the answers and the choices of racing reads (log entries 5, 4 and 19). -/
def Obligations.ResetIssuesNothingAndSparesTheRest : Prop :=
  ∀ (s : State) (rest : List HostAction), s.params.valid = true → s.inbox = .reset :: rest →
    ∃ t, step s = .next t ∧ t.eventTrace = s.eventTrace ∧ t.log = s.log ++ [.reset s.callInProgress] ∧ t.busy = false
      ∧ t.text = s.text ∧ t.params = s.params ∧ t.inbox = rest ∧ t.answers = s.answers ∧ t.drawn = s.drawn
      ∧ t.picks = s.picks ∧ t.latch = .any ∧ (∀ b, t.latch.mayHold b = true) ∧ t.lcd = .unknown

/-- The invariants hold right after power-on. -/
def Obligations.InvariantsHoldAtReset : Prop := Inv State.reset ∧ PulseInv State.reset

/-- Every step keeps the invariant: the memory's form, legal parameters, `S.faulted` and `S.last_err` true to the record
(10_state.md R37, R48), `S.busy` true to the sequencer (R38, R39), `S.phase` true to the last INIT (R47). -/
def Obligations.EveryStepKeepsTheInvariant : Prop :=
  ∀ s t : State, Inv s → step s = .next t → Inv t

/-- Every step keeps the enable pulse whole: a write with the enable bit clear directly follows, in the trace, the
successful write of the same byte with it set (40_encoder.md R131, 30_encoding.md R98). -/
def Obligations.EveryStepKeepsPulsesWhole : Prop :=
  ∀ s t : State, Inv s → PulseInv s → step s = .next t → PulseInv t

/-- No step from a state of the invariant stops: "The block has no trap mechanism" (60_exceptions.md R220). -/
def Obligations.EveryStepGoesOn : Prop :=
  ∀ s : State, Inv s → ∃ t, step s = .next t

/-- Read off the invariant (10_state.md, 7. Invariants): between commands `S.phase` says what became of the last INIT since
reset, and, always, `S.faulted = 0` means that no transport call has failed since reset. -/
def Obligations.PhaseAndFaultedBetweenCommands : Prop :=
  ∀ s : State, Inv s →
    (s.busy = false →
      (s.phase = .uninit ∨ s.phase = .ready ∨ s.phase = .faulted)
        ∧ (s.phase = .uninit → initStatus s.log = .never)
        ∧ (s.phase = .ready → initStatus s.log = .succeeded)
        ∧ (s.phase = .faulted → initStatus s.log = .failed))
    ∧ (s.faulted = false → failedSinceReset s.log = false)

/-- 10_state.md R40: the fields of the status word; bits [15:12] are always 0. The codes of the seven phases (R33); code 7 is
never held. -/
def Obligations.StatusWordFields : Prop :=
  ∀ s : State, s.statusWord.extractLsb' 0 3 = s.phase.code ∧ s.statusWord.getLsbD 3 = s.faulted
    ∧ s.statusWord.getLsbD 4 = s.bl ∧ s.statusWord.getLsbD 5 = s.busy
    ∧ s.statusWord.extractLsb' 6 3 = s.lastErr.code ∧ (s.statusWord.extractLsb' 9 3).toNat = s.cfgIdx.val
    ∧ s.statusWord.extractLsb' 12 4 = 0
    ∧ Phase.uninit.code = 0 ∧ Phase.boot1.code = 1 ∧ Phase.boot2.code = 2 ∧ Phase.boot3.code = 3
    ∧ Phase.config.code = 4 ∧ Phase.ready.code = 5 ∧ Phase.faulted.code = 6
    ∧ s.statusWord.extractLsb' 0 3 ≠ 7

/-- 43_control_ops.md R201: a status read returns the word as it stands, busy or not, and changes nothing; it is no event.
The two examples of the rule. The read is the model's log entry `status` (log entry 10). -/
def Obligations.StatusReadHasNoSideEffect : Prop :=
  (∀ (s : State) (rest : List HostAction), s.params.valid = true → s.inbox = .readStatus :: rest →
    ∃ t, step s = .next t ∧ t = { s with inbox := rest, log := s.log ++ [.status s.statusWord] }
      ∧ t.eventTrace = s.eventTrace)
  ∧ State.reset.statusWord = 0x0010
  ∧ ∀ s : State, s.cfgIdx = 5 → s.lastErr = .ok → s.busy = false → s.bl = true → s.faulted = false → s.phase = .ready →
      s.statusWord = 0x0A15

/-- 30_encoding.md R106: the code and the response word of each kind (the layout of R105); codes 6 and 7 are never
produced. -/
def Obligations.ResponseWords : Prop :=
  (∀ e : ErrCode, e.response.getLsbD 3 = e.fail ∧ e.response.extractLsb' 0 3 = e.code ∧ (e.code = 0 ↔ e.fail = false)
      ∧ e.code ≠ 6 ∧ e.code ≠ 7 ∧ e.response ≠ 0xE ∧ e.response ≠ 0xF)
    ∧ ErrCode.ok.code = 0 ∧ ErrCode.transportWriteFailed.code = 1 ∧ ErrCode.transportInitFailed.code = 2
    ∧ ErrCode.notInitialized.code = 3 ∧ ErrCode.outOfRange.code = 4 ∧ ErrCode.illegalCommand.code = 5
    ∧ ErrCode.ok.response = 0x0 ∧ ErrCode.transportWriteFailed.response = 0x9
    ∧ ErrCode.transportInitFailed.response = 0xA ∧ ErrCode.notInitialized.response = 0xB
    ∧ ErrCode.outOfRange.response = 0xC ∧ ErrCode.illegalCommand.response = 0xD

/-- 30_encoding.md R95, R97 and R98: under legal parameters the expander byte splits back into payload, backlight and
register-select, its enable bit is clear, every other low line is the register-select value's, and the two writes of a pulse differ only in the
enable bit, set in the first and clear in the second. -/
def Obligations.ExpanderByteFieldsAreDisjoint : Prop :=
  ∀ (p : Params) (bl : Bool) (n : Nibble) (rs : RegSelect), p.valid = true →
    (nib p bl n rs).extractLsb' 4 4 = n ∧ (nib p bl n rs).getLsbD p.blPos = bl
      ∧ (∀ k, k < 4 → k ≠ p.enBit → k ≠ p.blPos → (nib p bl n rs).getLsbD k = (p.rsValue rs).getLsbD k)
      ∧ enableSet p (nib p bl n rs) = false ∧ enableSet p (raised p (nib p bl n rs)) = true
      ∧ (∀ k, k ≠ p.enBit → (raised p (nib p bl n rs)).getLsbD k = (nib p bl n rs).getLsbD k)

/-- 30_encoding.md R99: every expander byte at the default parameters, for every nibble, register-select and backlight, in
the first and the second write; the R/W bit, bit 1, is 0 in all of them (R97). -/
def Obligations.ExpanderBytesAtDefaults : Prop :=
  ∀ (bl : Bool) (n : Nibble),
    nib Params.default bl n .command = (n ++ 0#4) ||| (if bl then 0x08 else 0x00)
      ∧ nib Params.default bl n .data = (n ++ 0#4) ||| (if bl then 0x09 else 0x01)
      ∧ (∀ rs, raised Params.default (nib Params.default bl n rs) = nib Params.default bl n rs ||| 0x04
          ∧ (nib Params.default bl n rs).getLsbD 1 = false
          ∧ (raised Params.default (nib Params.default bl n rs)).getLsbD 1 = false)

/-- 00_scope.md R14: parameters that break the constraints are refused, by every step and every command; no step changes
the parameters. -/
def Obligations.IllegalParametersAreRefused : Prop :=
  (∀ s : State, s.params.valid = false → step s = .refused .badParameters
    ∧ ∀ i : Instr, exec i s = .refused .badParameters)
  ∧ (∀ s t : State, step s = .next t → t.params = s.params)

/-- A step runs the decoded command: a word on the port of an idle block is accepted and executed, with the offer taken
off the port; a busy block that is left alone completes the call in progress. -/
def Obligations.StepRunsTheDecodedCommand : Prop :=
  (∀ (s : State) (w : Word) (rest : List HostAction), s.params.valid = true → s.busy = false →
    s.inbox = .command w :: rest → step s = exec (decode w) { s with inbox := rest })
  ∧ (∀ (s : State) (w : Word), s.params.valid = true →
      step (s.withFetchWord 16 w.toNat) = exec (decode w) { s with busy := false, seq := none })
  ∧ (∀ (s : State) (r : Seq), s.params.valid = true → s.busy = true → s.seq = some r → s.inbox = [] →
      step s = .next (advance r s))

/-- 43_control_ops.md R204: a busy block accepts no word. The offer waits on the port while the block goes on, and the
machine gives a busy block no command to execute. The model's own forms of this: the offer stays at the head of the host's
list (log entry 5), and a command executed all the same is refused as `portBusy` (log entry 11). -/
def Obligations.BusyPortAcceptsNoWord : Prop :=
  (∀ (s t : State) (w : Word) (rest : List HostAction), s.params.valid = true → s.busy = true →
    s.inbox = .command w :: rest → step s = .next t → blockStep s = .next t ∧ t.inbox = .command w :: rest)
  ∧ (∀ (s : State) (i : Instr), s.params.valid = true → s.busy = true → exec i s = .refused .portBusy)

/-- 00_scope.md R10: a step adds at most one event to the trace, and only a busy block adds one: the answered call that
was in progress. The byte of a read is `State.readByte`, of which MemReadReturnsTheByteHeld says what it is. -/
def Obligations.OneEventPerStep : Prop :=
  ∀ s t : State, step s = .next t →
    t.eventTrace = s.eventTrace
    ∨ ∃ (r : Seq) (e : Event), s.busy = true ∧ s.seq = some r ∧ t.eventTrace = s.eventTrace ++ [e]
        ∧ (match r.call with
          | .busInit => e = .init s.nextAnswer
          | .write v => e = .write v s.nextAnswer
          | .delay ms => e = .delay ms
          | .read a => e = .read a (s.readByte a))

/-- 43_control_ops.md R200: SETBL sets `S.bl` and `S.last_err` in every phase and issues nothing; the expander keeps what it
holds (70_reset_and_hazards.md R269). Whatever is not named is as before. The record and the emptied list of racing writes in
`answeredAtOnce` are the model's own (log entries 10 and 19). -/
def Obligations.SetblSetsTheBacklightBit : Prop :=
  (∀ (s : State) (v : Bool), s.params.valid = true → s.busy = false →
    exec (.setbl v) s = .next (answeredAtOnce (.setbl v) .ok { s with bl := v }))
  ∧ decode 0x7000 = .setbl false ∧ decode 0x7001 = .setbl true
  ∧ ∀ (s : State) (v : Bool), (answeredAtOnce (.setbl v) .ok { s with bl := v }).eventTrace = s.eventTrace

/-- 42_display_ops.md R170: with `REQUIRE_READY = 1` and `S.phase` other than READY a display command is rejected with
NotInitialized, response 0xB, before any event, SETCUR also where its column is out of range (60_exceptions.md R228). The
record and the emptied list of racing writes are the model's own (log entries 10 and 19). -/
def Obligations.GateRejectsDisplayCommands : Prop :=
  ∀ (s : State) (i : Instr), s.params.valid = true → s.busy = false → i.isDisplay = true →
    s.params.requireReady = true → s.phase ≠ .ready →
      exec i s = .next (answeredAtOnce i .notInitialized s) ∧ ErrCode.notInitialized.response = 0xB

/-- 42_display_ops.md R174: behind the gate, with `CHECK_BOUNDS = 1` and `COL >= NUM_COLUMNS`, SETCUR is rejected with
OutOfRange, response 0xC, before any event. The record and the emptied list of racing writes are the model's own (log
entries 10 and 19). -/
def Obligations.SetcurRejectsColumnOutOfRange : Prop :=
  ∀ (s : State) (row : Row) (col : Byte), s.params.valid = true → s.busy = false → gateCloses s = false →
    s.params.checkBounds = true → s.params.numColumns ≤ col.toNat →
      exec (.setcur row col) s = .next (answeredAtOnce (.setcur row col) .outOfRange s)
        ∧ ErrCode.outOfRange.response = 0xC

/-- 42_display_ops.md R171: behind the gate and with every write answered `true`, CLEAR completes and sends the message
`CLR_LCD`, Command, with its settle delay. Whatever `messageDone` does not name is as before. The latch and the LCD in `messageDone` are in the model's own
forms (log entries 7 and 8; 10_state.md R44), its draws are log entry 4, its record and emptied list of racing
writes log entries 10 and 19. -/
def Obligations.ClearCompletes : Prop :=
  ∀ s : State, Undisturbed s → gateCloses s = false → (∀ j, j < 4 → s.answerAt j = true) →
    ∃ t, exec .clear s = .next t
      ∧ run (messageEvents s.params s.bl s.params.clrLcd .command).length t
        = .next (messageDone .clear s.params.clrLcd .command s)

/-- 42_display_ops.md R172: PRINTC sends its character as one Data message, 0x00 like any other, and waits `T_SHORT` after it,
also where the character equals `CLR_LCD` or `RETURN_HOME` (40_encoder.md R134). The latch and the LCD in `messageDone` are in the model's own
forms (log entries 7 and 8; 10_state.md R44), its draws are log entry 4, its record and emptied list of racing
writes log entries 10 and 19. -/
def Obligations.PrintcCompletes : Prop :=
  ∀ (s : State) (ch : Byte), Undisturbed s → gateCloses s = false → (∀ j, j < 4 → s.answerAt j = true) →
    ∃ t, exec (.printc ch) s = .next t
      ∧ run (messageEvents s.params s.bl ch .data).length t = .next (messageDone (.printc ch) ch .data s)
      ∧ messageEvents s.params s.bl ch .data =
        [ .write (raised s.params (nib s.params s.bl (highNibble ch) .data)) true,
          .write (nib s.params s.bl (highNibble ch) .data) true,
          .write (raised s.params (nib s.params s.bl (lowNibble ch) .data)) true,
          .write (nib s.params s.bl (lowNibble ch) .data) true ]
        ++ (if s.params.tShort = 0 then [] else [.delay s.params.tShort])

/-- 42_display_ops.md R174: SETCUR sends `SET_CURSOR` or'ed with the sum, modulo 256, of the row's base and the column. The latch and the LCD in `messageDone` are in the model's own
forms (log entries 7 and 8; 10_state.md R44), its draws are log entry 4, its record and emptied list of racing
writes log entries 10 and 19. -/
def Obligations.SetcurCompletes : Prop :=
  ∀ (s : State) (row : Row) (col : Byte), Undisturbed s → gateCloses s = false → columnOut s.params col = false →
    (∀ j, j < 4 → s.answerAt j = true) →
    ∀ b : Byte, b = s.params.setCursor ||| BitVec.ofNat 8 (((s.params.rowBase row).toNat + col.toNat) % 256) →
    ∃ t, exec (.setcur row col) s = .next t
      ∧ run (messageEvents s.params s.bl b .command).length t = .next (messageDone (.setcur row col) b .command s)

/-- 42_display_ops.md R175: CURON sends display-control with display, cursor and blink on. The latch and the LCD in `messageDone` are in the model's own
forms (log entries 7 and 8; 10_state.md R44), its draws are log entry 4, its record and emptied list of racing
writes log entries 10 and 19. -/
def Obligations.CuronCompletes : Prop :=
  ∀ s : State, Undisturbed s → gateCloses s = false → (∀ j, j < 4 → s.answerAt j = true) →
    ∀ b : Byte, b = s.params.displayControl ||| s.params.displayOn ||| s.params.cursorOn ||| s.params.cursorBlink →
    ∃ t, exec .curon s = .next t
      ∧ run (messageEvents s.params s.bl b .command).length t = .next (messageDone .curon b .command s)

/-- 42_display_ops.md R176: CUROFF sends display-control with the display on and the cursor bits clear. The latch and the LCD in `messageDone` are in the model's own
forms (log entries 7 and 8; 10_state.md R44), its draws are log entry 4, its record and emptied list of racing
writes log entries 10 and 19. -/
def Obligations.CuroffCompletes : Prop :=
  ∀ s : State, Undisturbed s → gateCloses s = false → (∀ j, j < 4 → s.answerAt j = true) →
    ∀ b : Byte, b = s.params.displayControl ||| s.params.displayOn →
    ∃ t, exec .curoff s = .next t
      ∧ run (messageEvents s.params s.bl b .command).length t = .next (messageDone .curoff b .command s)

/-- 42_display_ops.md R173 and R180: PRINTS of a text of `k` characters with its terminator inside the memory completes. It
clears, homes the cursor and sends the characters in ascending order, reading `k + 1` bytes and sending no terminator. The latch and
the LCD at the end are in the model's own forms (log entries 7 and 8), the record is log entry 10. -/
def Obligations.PrintsCompletes : Prop :=
  ∀ (s : State) (addr : TextAddr) (k : Nat), Undisturbed s → gateCloses s = false → addr.toNat + k < 4096 →
    (∀ j, j < k → s.text.read (addr + BitVec.ofNat 12 j) ≠ 0x00) → s.text.read (addr + BitVec.ofNat 12 k) = 0x00 →
    (∀ j, j < 8 + 4 * k → s.answerAt j = true) →
    ∀ evs : List Event,
      evs = messageEvents s.params s.bl s.params.clrLcd .command
        ++ messageEvents s.params s.bl (s.params.setCursor ||| s.params.rowBase0) .command
        ++ (List.range k).flatMap (fun j =>
            .read (addr + BitVec.ofNat 12 j) (s.text.read (addr + BitVec.ofNat 12 j))
              :: messageEvents s.params s.bl (s.text.read (addr + BitVec.ofNat 12 j)) .data)
        ++ [.read (addr + BitVec.ofNat 12 k) 0x00] →
    ∃ t u, exec (.prints addr) s = .next t ∧ run evs.length t = .next u
      ∧ u.log = s.log ++ (.accepted (.prints addr) :: (evs.map .event ++ [.responded (.prints addr) 0x0]))
      ∧ SameRegisters s u ∧ u.busy = false ∧ u.lastErr = .ok ∧ u.faulted = s.faulted
      ∧ u.latch = s.latch.afterEvents evs ∧ u.lcd = s.lcd.afterEvents s.params evs

/-- 42_display_ops.md R173, R180: PRINTS of a text with no terminator up to 0xFFF sends every byte and ends with OutOfRange,
response 0xC; it does not wrap and `S.faulted` is unchanged. The display is left as any value (R179;
93_implementation_defined.md U5), which is the LCD unknown. The latch, the LCD and the record are in the model's own forms
(log entries 7, 8 and 10). -/
def Obligations.PrintsWithoutTerminatorEndsOutOfRange : Prop :=
  ∀ (s : State) (addr : TextAddr), Undisturbed s → gateCloses s = false →
    (∀ a : TextAddr, addr.toNat ≤ a.toNat → s.text.read a ≠ 0x00) →
    (∀ j, j < 8 + 4 * (4096 - addr.toNat) → s.answerAt j = true) →
    ∀ evs : List Event,
      evs = messageEvents s.params s.bl s.params.clrLcd .command
        ++ messageEvents s.params s.bl (s.params.setCursor ||| s.params.rowBase0) .command
        ++ (List.range (4096 - addr.toNat)).flatMap (fun j =>
            .read (addr + BitVec.ofNat 12 j) (s.text.read (addr + BitVec.ofNat 12 j))
              :: messageEvents s.params s.bl (s.text.read (addr + BitVec.ofNat 12 j)) .data) →
    ∃ t u, exec (.prints addr) s = .next t ∧ run evs.length t = .next u
      ∧ u.log = s.log ++ (.accepted (.prints addr) :: (evs.map .event ++ [.responded (.prints addr) 0xC]))
      ∧ SameRegisters s u ∧ u.busy = false ∧ u.lastErr = .outOfRange ∧ u.faulted = s.faulted
      ∧ u.latch = s.latch.afterEvents evs ∧ u.lcd = .unknown

/-- 41_init.md R154 and R159: from every phase, INIT with every transport call answered `true` completes: one transport-init
call, three bootstrap nibbles and six messages with their delays, `S.phase` READY, `S.cfg_idx` 5; `S.faulted` and whatever
else is not named are as before. The calls at the default parameters with `S.bl = 1`, byte by byte; for every parameters
and backlight one `BusInit` and 30 writes. The latch as a set of bytes, the LCD
in step after a complete INIT, the draws, the record and the list of racing writes, emptied when a command is accepted, are
the model's own (log entries 7, 8, 4, 10 and 19). -/
def Obligations.InitCompletes : Prop :=
  (∀ s : State, Undisturbed s → (∀ j, j < 31 → s.answerAt j = true) →
    ∃ t, exec .init s = .next t
      ∧ run (initCalls s.params s.bl).length t = .next
        { s with
          phase := .ready
          cfgIdx := 5
          lastErr := .ok
          seq := none
          raced := []
          answers := s.answers.drop 31
          drawn := s.drawn + 31
          latch := .oneOf [nib s.params s.bl (lowNibble s.params.clrLcd) .command]
          lcd := .expectsHigh []
          log := s.log ++ (.accepted .init
            :: ((initCalls s.params s.bl).map (fun c => .event (c.done s.text)) ++ [.responded .init 0x0])) })
  ∧ (initCalls Params.default true =
    [ .busInit, .delay 50,
      .write 0x3C, .write 0x38, .delay 5, .write 0x3C, .write 0x38, .delay 1, .write 0x2C, .write 0x28, .delay 1,
      .write 0x2C, .write 0x28, .write 0x8C, .write 0x88,
      .write 0x0C, .write 0x08, .write 0x8C, .write 0x88,
      .write 0x0C, .write 0x08, .write 0x2C, .write 0x28, .delay 2,
      .write 0x0C, .write 0x08, .write 0x6C, .write 0x68,
      .write 0x0C, .write 0x08, .write 0xCC, .write 0xC8,
      .write 0x0C, .write 0x08, .write 0x1C, .write 0x18, .delay 2 ])
  ∧ ∀ (p : Params) (bl : Bool),
      (initCalls p bl).countP (fun c => match c with | .write _ => true | _ => false) = 30
        ∧ (initCalls p bl).count .busInit = 1

/-- 41_init.md R151 and R152, 10_state.md R33 and R34: `S.phase` and `S.cfg_idx` WHILE INIT RUNS, for each of its calls while it is in
progress: UNINIT up to the delay `T_INIT`, BOOT1, BOOT2 and BOOT3 during their bootstrap nibble and its delay, all with index
0, and CONFIG with index `i` during message `i`. The calls are those of a complete INIT, call number `j` being in progress
after `j` events; the same at the default parameters as a plain list, call by call. That an assignment takes effect
with the event before it is the model's reading (log entry 1). -/
def Obligations.InitPhases : Prop :=
  (∀ (s : State) (j : Nat) (c : Call) (ph : Phase) (i : Fin 6), Undisturbed s →
    (initStages s.params s.bl)[j]? = some (c, ph, i) →
    (∀ m, m < ((initCalls s.params s.bl).take j).countP Call.isTransport → s.answerAt m = true) →
    ∃ t u, exec .init s = .next t ∧ run j t = .next u ∧ u.busy = true ∧ u.callInProgress = some c ∧ u.phase = ph
      ∧ u.cfgIdx = i ∧ u.bl = s.bl)
  ∧ (∀ (p : Params) (bl : Bool), (initStages p bl).map (fun x => x.1) = initCalls p bl)
  ∧ ∀ bl : Bool, (initStages Params.default bl).map (fun x => x.2) =
      List.replicate 2 (.uninit, 0)
        ++ List.replicate 3 (.boot1, 0) ++ List.replicate 3 (.boot2, 0) ++ List.replicate 3 (.boot3, 0)
        ++ List.replicate 4 (.config, 0) ++ List.replicate 4 (.config, 1) ++ List.replicate 5 (.config, 2)
        ++ List.replicate 4 (.config, 3) ++ List.replicate 4 (.config, 4) ++ List.replicate 5 (.config, 5)

/-- 41_init.md R153: a failing INIT. Where `BusInit` answers `false` it issues nothing more: response 0xA, `S.phase` FAULTED,
`S.faulted` 1, `S.cfg_idx` 0. Where write number `j + 1` (1 to 30) is the first call to fail it ends there: response 0x9,
`S.phase` FAULTED, `S.faulted` 1, and `S.cfg_idx` keeps the index of the message that failed, or 0 before the
configuration phase. The events before the failing one are those of a complete INIT. The LCD unknown and the latch
as it was after a failed `BusInit`, the record and the emptied list of racing writes are the model's own (log entries 8, 16, 10
and 19). -/
def Obligations.FailedInit : Prop :=
  (∀ s : State, Undisturbed s → s.answerAt 0 = false →
    ∃ t, exec .init s = .next t
      ∧ run 1 t = .next
        { s with
          phase := .faulted
          cfgIdx := 0
          faulted := true
          lastErr := .transportInitFailed
          seq := none
          raced := []
          answers := s.answers.drop 1
          drawn := s.drawn + 1
          lcd := .unknown
          log := s.log ++ [.accepted .init, .event (.init false), .responded .init 0xA] })
  ∧ (∀ (s : State) (j : Nat), Undisturbed s → j < 30 → (∀ m, m ≤ j → s.answerAt m = true) → s.answerAt (j + 1) = false →
    ∃ t u n, exec .init s = .next t ∧ run n t = .next u ∧ u.busy = false ∧ u.phase = .faulted ∧ u.faulted = true
      ∧ u.lastErr = .transportWriteFailed ∧ u.cfgIdx.val = (j - 6) / 4 ∧ u.bl = s.bl ∧ u.text = s.text
      ∧ (∃ (es : List Event) (v : Byte), u.log = s.log ++ (.accepted .init :: (es.map .event ++ [.event (.write v false), .responded .init 0x9]))
          ∧ es.countP Event.isTransport = j + 1 ∧ (∀ e ∈ es, e.failed = false)
          ∧ es = ((initCalls s.params s.bl).take es.length).map (fun c => c.done s.text)
          ∧ (initCalls s.params s.bl)[es.length]? = some (.write v)))

/-- 60_exceptions.md R224 and R227, 40_encoder.md R131: a `BusWrite` that answers `false` is the last event of its command:
response 0x9, `S.faulted` 1, `S.phase` FAULTED if and only if INIT runs, block idle. Both outcomes are kept for the
expander (R139) and the LCD is unknown. Whatever is not named is as before. -/
def Obligations.FailedWriteEndsTheCommand : Prop :=
  ∀ (s : State) (r : Seq) (v : Byte), s.params.valid = true → s.busy = true → s.seq = some r → s.inbox = [] →
    r.call = .write v → s.nextAnswer = false →
    ∃ t, step s = .next t
      ∧ t = { s with
          phase := if r.cmd.isInit then .faulted else s.phase
          faulted := true
          lastErr := .transportWriteFailed
          busy := false
          seq := none
          answers := s.answers.tail
          drawn := s.drawn + 1
          latch := s.latch.afterWrite v false
          lcd := .unknown
          log := s.log ++ [.event (.write v false), .responded r.cmd 0x9] }
      ∧ t.latch.mayHold v = true ∧ (∀ b, s.latch.mayHold b = true → t.latch.mayHold b = true)

/-- 70_reset_and_hazards.md R268: when the first write of a pulse fails, the enable line may be high between commands, and
it may also be low if it was. -/
def Obligations.FailedEnableWriteMayLeaveEnableHigh : Prop :=
  ∀ (s : State) (r : Seq) (u : Byte), s.params.valid = true → s.busy = true → s.seq = some r → s.inbox = [] →
    r.call = .write (raised s.params u) → s.nextAnswer = false →
    ∃ t, step s = .next t ∧ t.busy = false ∧ t.latch.enMayBeHigh t.params = true
      ∧ (s.latch.enMayBeLow s.params = true → t.latch.enMayBeLow t.params = true)

/-- 10_state.md R44: a write that succeeds is the byte the expander holds, and the enable line is low only if that byte
has the enable bit clear. -/
def Obligations.SuccessfulWriteIsWhatTheExpanderHolds : Prop :=
  ∀ (s : State) (r : Seq) (v : Byte), s.params.valid = true → s.busy = true → s.seq = some r → s.inbox = [] →
    r.call = .write v → s.nextAnswer = true →
    ∃ t, step s = .next t ∧ (∀ b, t.latch.mayHold b = true ↔ b = v)
      ∧ (t.latch.enMayBeLow t.params = true ↔ enableSet s.params v = false)

/-- From every state of the invariant, a `MemRead` in progress returns the byte the memory holds then (20_memory.md R62) and
has no side effect on the memory, the transport, the environment or a register (R72). Where host writes to its address have
raced with the command it returns that byte or one they replaced: that is the model's choice between R77, D36 and U12 (log
entry 19). (`S.last_err` and `S.busy` are not named where the
byte is the terminator: there the command itself writes them, as PRINTS responds.) The list of racing writes, and the
choice a racing read uses up, are the model's own (log entry 19). -/
def Obligations.MemReadReturnsTheByteHeld : Prop :=
  ∀ (s : State) (r : Seq) (a : TextAddr), Inv s → s.seq = some r → s.inbox = [] → r.call = .read a →
    ∃ t, ∃ b ∈ s.text.read a :: s.replaced a, step s = .next t ∧ t.eventTrace = s.eventTrace ++ [.read a b]
      ∧ b = s.readByte a ∧ (s.replaced a = [] → b = s.text.read a ∧ t.picks = s.picks)
      ∧ t.text = s.text ∧ t.raced = s.raced
      ∧ t.latch = s.latch ∧ t.lcd = s.lcd ∧ t.answers = s.answers ∧ t.drawn = s.drawn ∧ t.params = s.params
      ∧ t.phase = s.phase ∧ t.cfgIdx = s.cfgIdx ∧ t.bl = s.bl ∧ t.faulted = s.faulted
      ∧ (b ≠ 0x00 → t.lastErr = s.lastErr ∧ t.busy = true)

/-- 20_memory.md R77, 92_eei_decisions.md D36, 93_implementation_defined.md U12: a read that races with the host's writes may return
every byte its address has held since the command was accepted: each is returned for some choice. The bytes kept for
this are exactly the ones that host writes replace while a command runs: accepting a command forgets them, no other step adds
one, and while a command runs none is lost. That "any value written so far" means these bytes, and the choices, are the model's own
(log entry 19). -/
def Obligations.RacedReadReturnsAnyByteHeld : Prop :=
  (∀ (s : State) (r : Seq) (a : TextAddr) (b : Byte), Inv s → s.seq = some r → s.inbox = [] → r.call = .read a →
    b ∈ s.text.read a :: s.replaced a →
    ∃ n : Nat, ∀ rest : List Nat, ∃ t, step { s with picks := n :: rest } = .next t
      ∧ t.eventTrace = s.eventTrace ++ [.read a b])
  ∧ (∀ (s t : State) (a : TextAddr) (b : Byte) (rest : List HostAction), s.busy = true → s.inbox = .writeText a b :: rest →
      step s = .next t → t.replaced a = s.text.read a :: s.replaced a ∧ ∀ x, x ≠ a → t.replaced x = s.replaced x)
  ∧ (∀ (s t : State) (i : Instr), exec i s = .next t → t.raced = [])
  ∧ ∀ s t : State, step s = .next t → (∀ a b rest, s.inbox ≠ .writeText a b :: rest) → s.busy = true → t.raced = s.raced

/-- 40_encoder.md R136: in any command and before any rest of its pseudocode, a SEND_MESSAGE whose writes succeed adds
exactly `H | EN`, `H`, `L | EN`, `L`, then its settle delay if there is one, and changes nothing but the draws and the
environment before the rest goes on. The settle delay is `T_LONG` exactly where the register-select is Command and the byte is
`CLR_LCD` or `RETURN_HOME`, else `T_SHORT` (R134); a Data byte of the same value gets `T_SHORT`. The latch, the LCD, the draws and the record are in the model's own
forms (log entries 7, 8, 4 and 10). -/
def Obligations.SendMessageIsFourWrites : Prop :=
  (∀ (p : Params) (b : Byte), settle p b .command = (if b = p.clrLcd ∨ b = p.returnHome then p.tLong else p.tShort)
    ∧ settle p b .data = p.tShort)
  ∧ (∀ (p : Params) (bl : Bool) (b : Byte) (rs : RegSelect), messageEvents p bl b rs =
      [ .write (raised p (nib p bl (highNibble b) rs)) true, .write (nib p bl (highNibble b) rs) true,
        .write (raised p (nib p bl (lowNibble b) rs)) true, .write (nib p bl (lowNibble b) rs) true ]
      ++ (if settle p b rs = 0 then [] else [.delay (settle p b rs)]))
  ∧ ∀ (s : State) (cmd : Instr) (k : List Micro) (b : Byte) (rs : RegSelect), s.params.valid = true → s.busy = true →
    s.inbox = [] → (∀ j, j < 4 → s.answerAt j = true) →
    run (messageEvents s.params s.bl b rs).length (proceed cmd (sendMessage s.params b rs ++ k) s)
      = .next (proceed cmd k
        { s with
          answers := s.answers.drop 4
          drawn := s.drawn + 4
          latch := .oneOf [nib s.params s.bl (lowNibble b) rs]
          lcd := (s.lcd.latchNibble (nib s.params s.bl (highNibble b) rs)).latchNibble (nib s.params s.bl (lowNibble b) rs)
          log := s.log ++ (messageEvents s.params s.bl b rs).map .event })

/-- THE WHOLE COURSE OF EVERY COMMAND, for every command, every legal parameters, every text and every answers of the
transport: the machine, one event a step, issues exactly the calls the spec's trace rules list for the command (`plan`), up to
and including the first transport call that fails (`play`; 60_exceptions.md R226, R227), and ends it with the code and the
registers of R224. After a command that failed once it had issued a call the LCD is unknown (93_implementation_defined.md U4, U5). -/
def Obligations.CommandsFollowTheirCourse : Prop :=
  ∀ (i : Instr) (s : State), Undisturbed s →
    ∃ t u, exec i s = .next t ∧ run (course i s).1.length t = .next u
      ∧ u.log = s.log ++ (.accepted i :: ((course i s).1.map .event ++ [.responded i (course i s).2.response]))
      ∧ u.busy = false ∧ u.seq = none ∧ u.lastErr = (course i s).2
      ∧ u.faulted = (s.faulted || (course i s).2.isTransport)
      ∧ u.phase = (if i.isInit then (if (course i s).2 = .ok then .ready else .faulted) else s.phase)
      ∧ (i.isInit = false → u.cfgIdx = s.cfgIdx)
      ∧ u.bl = (match i with | .setbl v => v | _ => s.bl)
      ∧ u.params = s.params ∧ u.text = s.text ∧ u.inbox = s.inbox
      ∧ u.drawn = s.drawn + (course i s).1.countP Event.isTransport
      ∧ u.answers = s.answers.drop ((course i s).1.countP Event.isTransport)
      ∧ u.latch = s.latch.afterEvents (course i s).1
      ∧ u.lcd = s.lcd.afterCommand s.params i (course i s)

/-- 20_memory.md R76, 60_exceptions.md R227: however long the machine has run after it accepted a command, of the events added
to the record none but the last has failed; once one has failed the block is idle; and when the command has ended, the last
event has failed exactly when it ended with a transport error. The record is the model's own (log entry 10). -/
def Obligations.OnlyTheLastEventFails : Prop :=
  ∀ (i : Instr) (s t u : State) (n : Nat), Undisturbed s → exec i s = .next t → run n t = .next u →
    ∃ es : List Event, u.eventTrace = s.eventTrace ++ es
      ∧ (∀ e ∈ es.dropLast, e.failed = false)
      ∧ ((∃ e ∈ es, e.failed = true) → u.busy = false)
      ∧ (u.busy = false → (u.lastErr.isTransport = true ↔ ∃ e, es.getLast? = some e ∧ e.failed = true))

/-- 42_display_ops.md R178: however long a display command has run, and however it ends, `S.phase`, `S.cfg_idx`, `S.bl`,
the parameters and every byte of the text memory are as before, and `S.faulted` changes only to 1 on a transport
failure. -/
def Obligations.DisplayCommandsKeepTheRegisters : Prop :=
  ∀ (i : Instr) (s t u : State) (n : Nat), Undisturbed s → i.isDisplay = true → exec i s = .next t →
    run n t = .next u → SameRegisters s u ∧ (∀ a, u.text.read a = s.text.read a)
      ∧ (u.faulted ≠ s.faulted → u.faulted = true ∧ u.lastErr.isTransport = true)

/-- 43_control_ops.md R203: every command ends, whatever the transport answers: after at most 24586 events the block is
idle again. That every call is answered is the spec's assumption, which the model takes over (log entry 21). -/
def Obligations.EveryCommandEnds : Prop :=
  ∀ (i : Instr) (s : State), Undisturbed s →
    ∃ t u n, n ≤ 24586 ∧ exec i s = .next t ∧ run n t = .next u ∧ u.busy = false

/-- WHO WRITES WHAT (10_state.md R33 to R35; 20_memory.md R60, R61). From every state of the invariant: `S.bl` changes only by
reset or by accepting a SETBL; `S.phase` and `S.cfg_idx` only by reset, by accepting INIT, or while INIT runs; the text memory
only by the host's own write, and then only at its address; the parameters never. -/
def Obligations.EveryRegisterHasItsWriters : Prop :=
  ∀ s t : State, Inv s → step s = .next t →
    (t.bl ≠ s.bl → (∃ rest, s.inbox = .reset :: rest)
      ∨ ∃ w v rest, s.inbox = .command w :: rest ∧ s.busy = false ∧ decode w = .setbl v ∧ t.bl = v)
    ∧ ((t.phase ≠ s.phase ∨ t.cfgIdx ≠ s.cfgIdx) → (∃ rest, s.inbox = .reset :: rest)
      ∨ (∃ w rest, s.inbox = .command w :: rest ∧ s.busy = false ∧ decode w = .init)
      ∨ ∃ r, s.seq = some r ∧ r.cmd = .init)
    ∧ (∀ a, t.text.read a ≠ s.text.read a → ∃ rest, s.inbox = .writeText a (t.text.read a) :: rest)
    ∧ t.params = s.params

/-- The host's text memory (20_memory.md R61; canonical form, log entry 6): a write keeps the form, is read back, and leaves
every other address alone. While a command runs the byte it replaces is kept for a racing read (log entry 19). -/
def Obligations.TextWriteIsReadBack : Prop :=
  ∀ (s : State) (a : TextAddr) (b : Byte) (rest : List HostAction), s.params.valid = true → s.text.wf = true →
    s.inbox = .writeText a b :: rest →
    ∃ t, step s = .next t ∧ t.text.wf = true ∧ t.text.read a = b ∧ (∀ x, x ≠ a → t.text.read x = s.text.read x)
      ∧ t = { s with
          text := t.text
          raced := if s.busy then (a, s.text.read a) :: s.raced else s.raced
          inbox := rest }

/-- 30_encoding.md R104: the lines of the table, each read as its item; the word of an item whose operands fit is the word of
its command, and an operand out of range is an error; and an assembled line adds exactly that word, or ends the assembly with
the error and no word. Which spellings beside the table's are lines is the model's choice (log entry 17). -/
def Obligations.AssemblerFollowsTheTable : Prop :=
  (∀ ch : Nat, (AsmItem.printc ch).word
      = if ch ≤ 255 then .ok (some (encode (.printc (BitVec.ofNat 8 ch)))) else .error .outOfRange)
  ∧ (∀ addr : Nat, (AsmItem.prints addr).word
      = if addr ≤ 4095 then .ok (some (encode (.prints (BitVec.ofNat 12 addr)))) else .error .outOfRange)
  ∧ (∀ row col : Nat, (AsmItem.setcur row col).word
      = if row ≤ 1 ∧ col ≤ 255 then .ok (some (encode (.setcur (if row = 0 then .first else .second) (BitVec.ofNat 8 col))))
        else .error .outOfRange)
  ∧ (∀ v : Nat, (AsmItem.setbl v).word
      = if v ≤ 1 then .ok (some (encode (.setbl (v == 1)))) else .error .outOfRange)
  ∧ AsmItem.init.word = .ok (some (encode .init)) ∧ AsmItem.clear.word = .ok (some (encode .clear))
  ∧ AsmItem.curon.word = .ok (some (encode .curon)) ∧ AsmItem.curoff.word = .ok (some (encode .curoff))
  ∧ (∀ (l : List Char) (ls : List (List Char)) (o : AsmOut) (i : AsmItem) (w : Word),
      parseLine l = .ok (some i) → i.word = .ok (some w) →
        assemble (l :: ls) o = assemble ls { o with words := o.words ++ [w] })
  ∧ (∀ (l : List Char) (ls : List (List Char)) (o : AsmOut) (i : AsmItem),
      parseLine l = .ok (some i) → i.word = .error .outOfRange → assemble (l :: ls) o = .error .outOfRange)
  ∧ parseLine "INIT".toList = .ok (some .init) ∧ parseLine "CLEAR".toList = .ok (some .clear)
  ∧ parseLine "PRINTC 65".toList = .ok (some (.printc 65)) ∧ parseLine "PRINTC 'x' ; a comment".toList = .ok (some (.printc 0x78))
  ∧ parseLine "PRINTS 0x100".toList = .ok (some (.prints 0x100)) ∧ parseLine "SETCUR 1, 0x3F".toList = .ok (some (.setcur 1 0x3F))
  ∧ parseLine "CURON".toList = .ok (some .curon) ∧ parseLine "CUROFF".toList = .ok (some .curoff)
  ∧ parseLine "SETBL 0".toList = .ok (some (.setbl 0)) ∧ parseLine ".org 0x000".toList = .ok (some (.org 0))
  ∧ parseLine ".asciz \"Hi\"".toList = .ok (some (.asciz [0x48, 0x69]))

/-- 10_state.md R49, 60_exceptions.md R237: instances share no state; a step of one is that block's own step and leaves every other as
it was. The list is the model's own, and so is a text memory for each instance, on which it rests that a host's text write to
one leaves every other as it was (log entry 18). -/
def Obligations.InstancesAreIndependent : Prop :=
  ∀ (k : Nat) (bs cs : List State), stepInstance k bs = .next cs →
    (∀ j, j ≠ k → cs[j]? = bs[j]?) ∧ ∀ s, bs[k]? = some s → ∃ t, step s = .next t ∧ cs[k]? = some t
end

