-- ==== Sys2Proof/Laws/Encoding.lean ====
section
/-! SUPPORT. The two fields of a command word, and the pattern rows over them. -/

namespace Sys2Proof

/-- `OP` and `ARG` of a word put together from them. -/
theorem opField_append (a : BitVec 4) (b : BitVec 12) : opField (a ++ b) = a := by
  unfold opField
  apply BitVec.eq_of_getLsbD_eq
  intro i hi
  rw [BitVec.getLsbD_extractLsb', BitVec.getLsbD_append, if_neg (by omega)]
  simp [hi]

theorem argField_append (a : BitVec 4) (b : BitVec 12) : argField (a ++ b) = b := by
  unfold argField
  apply BitVec.eq_of_getLsbD_eq
  intro i hi
  rw [BitVec.getLsbD_extractLsb', BitVec.getLsbD_append, if_pos (by omega)]
  simp [hi]

/-- A word is its `OP` and its `ARG`. -/
theorem opField_argField (w : Word) : opField w ++ argField w = w := by
  unfold opField argField
  apply BitVec.eq_of_getLsbD_eq
  intro i hi
  rw [BitVec.getLsbD_append]
  split
  · rw [BitVec.getLsbD_extractLsb']; simp_all
  · rw [BitVec.getLsbD_extractLsb', show 12 + (i - 12) = i by omega]; simp; intro; omega

/-- A pattern row, `OP` and `ARG` apart. -/
theorem fits_append (p : Pattern) (a : BitVec 4) (b : BitVec 12) :
    p.fits (a ++ b) = ((a &&& opField p.mask == opField p.bits) && (b &&& argField p.mask == argField p.bits)) := by
  unfold Pattern.fits
  have h : ∀ w : Word, w = p.bits ↔ opField w = opField p.bits ∧ argField w = argField p.bits := by
    intro w
    refine ⟨fun h => by simp [h], fun h => ?_⟩
    rw [← opField_argField w, ← opField_argField p.bits, h.1, h.2]
  have h1 : opField ((a ++ b) &&& p.mask) = a &&& opField p.mask := by
    unfold opField
    rw [BitVec.extractLsb'_and]
    exact congrArg (· &&& _) (opField_append a b)
  have h2 : argField ((a ++ b) &&& p.mask) = b &&& argField p.mask := by
    unfold argField
    rw [BitVec.extractLsb'_and]
    exact congrArg (· &&& _) (argField_append a b)
  rw [Bool.eq_iff_iff]
  simp only [beq_iff_eq, Bool.and_eq_true, h, h1, h2]

end Sys2Proof
end

