-- ==== Sys2Proof/Laws/Memory.lean ====
section
/-! SUPPORT. The laws of the text memory: a write keeps the canonical form, reads back what was written, and leaves every
other address alone; two canonical memories that read the same are the same list. -/

namespace Sys2Proof.Machine

theorem wfFrom_mono {lo lo' : Nat} (h : lo' ≤ lo) : ∀ {m : Memory}, Memory.wfFrom lo m = true → Memory.wfFrom lo' m = true
  | [], _ => rfl
  | (k, v) :: rest, hm => by
    simp only [Memory.wfFrom, Bool.and_eq_true, decide_eq_true_eq] at hm ⊢
    exact ⟨⟨⟨by omega, hm.1.1.2⟩, hm.1.2⟩, hm.2⟩

theorem put_wfFrom {lo a : Nat} {b : Byte} {rest : Memory} (hlo : lo ≤ a) (ha : a < Memory.size)
    (h : Memory.wfFrom (a + 1) rest = true) : Memory.wfFrom lo (Memory.put a b rest) = true := by
  unfold Memory.put
  split
  · exact wfFrom_mono (by omega) h
  · simp_all [Memory.wfFrom]

theorem store_wfFrom {a : Nat} {b : Byte} (ha : a < Memory.size) :
    ∀ {m : Memory} {lo : Nat}, lo ≤ a → Memory.wfFrom lo m = true → Memory.wfFrom lo (Memory.store m a b) = true
  | [], lo, hlo, _ => put_wfFrom hlo ha rfl
  | (k, v) :: rest, lo, hlo, hm => by
    have hm' := hm
    simp only [Memory.wfFrom, Bool.and_eq_true, decide_eq_true_eq] at hm
    unfold Memory.store
    split
    · refine put_wfFrom hlo ha ?_
      simp only [Memory.wfFrom, Bool.and_eq_true, decide_eq_true_eq]
      exact ⟨⟨⟨by omega, hm.1.1.2⟩, hm.1.2⟩, hm.2⟩
    · split
      · next h => subst h; exact put_wfFrom hlo ha hm.2
      · simp only [Memory.wfFrom, Bool.and_eq_true, decide_eq_true_eq]
        exact ⟨⟨⟨hm.1.1.1, hm.1.1.2⟩, hm.1.2⟩, store_wfFrom ha (by omega) hm.2⟩

/-- A host write keeps the canonical form. -/
theorem write_wf {m : Memory} (a : TextAddr) (b : Byte) (h : m.wf = true) : (m.write a b).wf = true :=
  store_wfFrom a.isLt (Nat.zero_le _) h

theorem lookup_below {a : Nat} : ∀ {m : Memory} {lo : Nat}, a < lo → Memory.wfFrom lo m = true →
    Memory.lookup m a = Memory.unlisted
  | [], _, _, _ => rfl
  | (k, v) :: rest, lo, hlo, hm => by
    simp only [Memory.wfFrom, Bool.and_eq_true, decide_eq_true_eq] at hm
    rw [Memory.lookup, if_neg (by omega)]
    exact lookup_below (by omega : a < k + 1) hm.2

theorem lookup_put_same {a : Nat} {b : Byte} {rest : Memory} (h : Memory.wfFrom (a + 1) rest = true) :
    Memory.lookup (Memory.put a b rest) a = b := by
  unfold Memory.put
  split
  · next hb => rw [hb]; exact lookup_below (by omega) h
  · simp [Memory.lookup]

theorem lookup_put_other {a x : Nat} {b : Byte} {rest : Memory} (hx : x ≠ a) :
    Memory.lookup (Memory.put a b rest) x = Memory.lookup rest x := by
  unfold Memory.put
  split
  · rfl
  · rw [Memory.lookup, if_neg (by omega)]

theorem lookup_store_same {a : Nat} {b : Byte} : ∀ {m : Memory} {lo : Nat}, Memory.wfFrom lo m = true →
    Memory.lookup (Memory.store m a b) a = b
  | [], _, _ => lookup_put_same rfl
  | (k, v) :: rest, lo, hm => by
    simp only [Memory.wfFrom, Bool.and_eq_true, decide_eq_true_eq] at hm
    unfold Memory.store
    split
    · refine lookup_put_same ?_
      simp only [Memory.wfFrom, Bool.and_eq_true, decide_eq_true_eq]
      exact ⟨⟨⟨by omega, hm.1.1.2⟩, hm.1.2⟩, hm.2⟩
    · split
      · next h => subst h; exact lookup_put_same hm.2
      · rw [Memory.lookup, if_neg (by omega)]
        exact lookup_store_same hm.2

theorem lookup_store_other {a x : Nat} {b : Byte} (hx : x ≠ a) : ∀ {m : Memory},
    Memory.lookup (Memory.store m a b) x = Memory.lookup m x
  | [] => lookup_put_other hx
  | (k, v) :: rest => by
    unfold Memory.store
    split
    · exact lookup_put_other hx
    · split
      · next h => subst h; rw [lookup_put_other hx, Memory.lookup, if_neg (by omega)]
      · rw [Memory.lookup, Memory.lookup, lookup_store_other hx]

theorem read_write_same {m : Memory} {a : TextAddr} {b : Byte} (h : m.wf = true) : (m.write a b).read a = b :=
  lookup_store_same h

theorem read_write_other {m : Memory} {a x : TextAddr} {b : Byte} (hx : x ≠ a) : (m.write a b).read x = m.read x :=
  lookup_store_other (fun h => hx (BitVec.eq_of_toNat_eq h))

end Sys2Proof.Machine
end

