-- ==== Sys2Proof/Laws/State.lean ====
section
/-! SUPPORT. One lemma per field per update of the state. -/

namespace Sys2Proof.Machine

@[simp] theorem record_params (s : State) (e : Entry) : (s.record e).params = s.params := rfl
@[simp] theorem record_phase (s : State) (e : Entry) : (s.record e).phase = s.phase := rfl
@[simp] theorem record_cfgIdx (s : State) (e : Entry) : (s.record e).cfgIdx = s.cfgIdx := rfl
@[simp] theorem record_bl (s : State) (e : Entry) : (s.record e).bl = s.bl := rfl
@[simp] theorem record_faulted (s : State) (e : Entry) : (s.record e).faulted = s.faulted := rfl
@[simp] theorem record_lastErr (s : State) (e : Entry) : (s.record e).lastErr = s.lastErr := rfl
@[simp] theorem record_busy (s : State) (e : Entry) : (s.record e).busy = s.busy := rfl
@[simp] theorem record_seq (s : State) (e : Entry) : (s.record e).seq = s.seq := rfl
@[simp] theorem record_text (s : State) (e : Entry) : (s.record e).text = s.text := rfl
@[simp] theorem record_raced (s : State) (e : Entry) : (s.record e).raced = s.raced := rfl
@[simp] theorem record_picks (s : State) (e : Entry) : (s.record e).picks = s.picks := rfl
@[simp] theorem record_inbox (s : State) (e : Entry) : (s.record e).inbox = s.inbox := rfl
@[simp] theorem record_answers (s : State) (e : Entry) : (s.record e).answers = s.answers := rfl
@[simp] theorem record_drawn (s : State) (e : Entry) : (s.record e).drawn = s.drawn := rfl
@[simp] theorem record_latch (s : State) (e : Entry) : (s.record e).latch = s.latch := rfl
@[simp] theorem record_lcd (s : State) (e : Entry) : (s.record e).lcd = s.lcd := rfl
@[simp] theorem record_log (s : State) (e : Entry) : (s.record e).log = s.log ++ [e] := rfl

@[simp] theorem draw_params (s : State) : s.draw.params = s.params := rfl
@[simp] theorem draw_phase (s : State) : s.draw.phase = s.phase := rfl
@[simp] theorem draw_cfgIdx (s : State) : s.draw.cfgIdx = s.cfgIdx := rfl
@[simp] theorem draw_bl (s : State) : s.draw.bl = s.bl := rfl
@[simp] theorem draw_faulted (s : State) : s.draw.faulted = s.faulted := rfl
@[simp] theorem draw_lastErr (s : State) : s.draw.lastErr = s.lastErr := rfl
@[simp] theorem draw_busy (s : State) : s.draw.busy = s.busy := rfl
@[simp] theorem draw_seq (s : State) : s.draw.seq = s.seq := rfl
@[simp] theorem draw_text (s : State) : s.draw.text = s.text := rfl
@[simp] theorem draw_raced (s : State) : s.draw.raced = s.raced := rfl
@[simp] theorem draw_picks (s : State) : s.draw.picks = s.picks := rfl
@[simp] theorem draw_inbox (s : State) : s.draw.inbox = s.inbox := rfl
@[simp] theorem draw_answers (s : State) : s.draw.answers = s.answers.tail := rfl
@[simp] theorem draw_drawn (s : State) : s.draw.drawn = s.drawn + 1 := rfl
@[simp] theorem draw_latch (s : State) : s.draw.latch = s.latch := rfl
@[simp] theorem draw_lcd (s : State) : s.draw.lcd = s.lcd := rfl
@[simp] theorem draw_log (s : State) : s.draw.log = s.log := rfl

@[simp] theorem respondOk_params (c : Instr) (s : State) : (respondOk c s).params = s.params := rfl
@[simp] theorem respondOk_phase (c : Instr) (s : State) : (respondOk c s).phase = s.phase := rfl
@[simp] theorem respondOk_cfgIdx (c : Instr) (s : State) : (respondOk c s).cfgIdx = s.cfgIdx := rfl
@[simp] theorem respondOk_bl (c : Instr) (s : State) : (respondOk c s).bl = s.bl := rfl
@[simp] theorem respondOk_faulted (c : Instr) (s : State) : (respondOk c s).faulted = s.faulted := rfl
@[simp] theorem respondOk_lastErr (c : Instr) (s : State) : (respondOk c s).lastErr = .ok := rfl
@[simp] theorem respondOk_busy (c : Instr) (s : State) : (respondOk c s).busy = false := rfl
@[simp] theorem respondOk_seq (c : Instr) (s : State) : (respondOk c s).seq = none := rfl
@[simp] theorem respondOk_text (c : Instr) (s : State) : (respondOk c s).text = s.text := rfl
@[simp] theorem respondOk_raced (c : Instr) (s : State) : (respondOk c s).raced = s.raced := rfl
@[simp] theorem respondOk_picks (c : Instr) (s : State) : (respondOk c s).picks = s.picks := rfl
@[simp] theorem respondOk_inbox (c : Instr) (s : State) : (respondOk c s).inbox = s.inbox := rfl
@[simp] theorem respondOk_answers (c : Instr) (s : State) : (respondOk c s).answers = s.answers := rfl
@[simp] theorem respondOk_drawn (c : Instr) (s : State) : (respondOk c s).drawn = s.drawn := rfl
@[simp] theorem respondOk_latch (c : Instr) (s : State) : (respondOk c s).latch = s.latch := rfl
@[simp] theorem respondOk_lcd (c : Instr) (s : State) : (respondOk c s).lcd = if c.isInit then .expectsHigh [] else s.lcd := rfl
@[simp] theorem respondOk_log (c : Instr) (s : State) : (respondOk c s).log = s.log ++ [.responded c ErrCode.ok.response] := rfl

@[simp] theorem raise_params (c : Instr) (k : ErrCode) (s : State) : (raise c k s).params = s.params := rfl
@[simp] theorem raise_phase (c : Instr) (k : ErrCode) (s : State) : (raise c k s).phase = if c.isInit then .faulted else s.phase := rfl
@[simp] theorem raise_cfgIdx (c : Instr) (k : ErrCode) (s : State) : (raise c k s).cfgIdx = s.cfgIdx := rfl
@[simp] theorem raise_bl (c : Instr) (k : ErrCode) (s : State) : (raise c k s).bl = s.bl := rfl
@[simp] theorem raise_faulted (c : Instr) (k : ErrCode) (s : State) : (raise c k s).faulted = (s.faulted || k.isTransport) := rfl
@[simp] theorem raise_lastErr (c : Instr) (k : ErrCode) (s : State) : (raise c k s).lastErr = k := rfl
@[simp] theorem raise_busy (c : Instr) (k : ErrCode) (s : State) : (raise c k s).busy = false := rfl
@[simp] theorem raise_seq (c : Instr) (k : ErrCode) (s : State) : (raise c k s).seq = none := rfl
@[simp] theorem raise_text (c : Instr) (k : ErrCode) (s : State) : (raise c k s).text = s.text := rfl
@[simp] theorem raise_raced (c : Instr) (k : ErrCode) (s : State) : (raise c k s).raced = s.raced := rfl
@[simp] theorem raise_picks (c : Instr) (k : ErrCode) (s : State) : (raise c k s).picks = s.picks := rfl
@[simp] theorem raise_inbox (c : Instr) (k : ErrCode) (s : State) : (raise c k s).inbox = s.inbox := rfl
@[simp] theorem raise_answers (c : Instr) (k : ErrCode) (s : State) : (raise c k s).answers = s.answers := rfl
@[simp] theorem raise_drawn (c : Instr) (k : ErrCode) (s : State) : (raise c k s).drawn = s.drawn := rfl
@[simp] theorem raise_latch (c : Instr) (k : ErrCode) (s : State) : (raise c k s).latch = s.latch := rfl
@[simp] theorem raise_lcd (c : Instr) (k : ErrCode) (s : State) : (raise c k s).lcd = s.lcd := rfl
@[simp] theorem raise_log (c : Instr) (k : ErrCode) (s : State) : (raise c k s).log = s.log ++ [.responded c k.response] := rfl

@[simp] theorem await_params (c : Instr) (q : Call) (k : List Micro) (s : State) : (await c q k s).params = s.params := rfl
@[simp] theorem await_phase (c : Instr) (q : Call) (k : List Micro) (s : State) : (await c q k s).phase = s.phase := rfl
@[simp] theorem await_cfgIdx (c : Instr) (q : Call) (k : List Micro) (s : State) : (await c q k s).cfgIdx = s.cfgIdx := rfl
@[simp] theorem await_bl (c : Instr) (q : Call) (k : List Micro) (s : State) : (await c q k s).bl = s.bl := rfl
@[simp] theorem await_faulted (c : Instr) (q : Call) (k : List Micro) (s : State) : (await c q k s).faulted = s.faulted := rfl
@[simp] theorem await_lastErr (c : Instr) (q : Call) (k : List Micro) (s : State) : (await c q k s).lastErr = s.lastErr := rfl
@[simp] theorem await_busy (c : Instr) (q : Call) (k : List Micro) (s : State) : (await c q k s).busy = s.busy := rfl
@[simp] theorem await_seq (c : Instr) (q : Call) (k : List Micro) (s : State) : (await c q k s).seq = some ⟨c, q, k⟩ := rfl
@[simp] theorem await_text (c : Instr) (q : Call) (k : List Micro) (s : State) : (await c q k s).text = s.text := rfl
@[simp] theorem await_raced (c : Instr) (q : Call) (k : List Micro) (s : State) : (await c q k s).raced = s.raced := rfl
@[simp] theorem await_picks (c : Instr) (q : Call) (k : List Micro) (s : State) : (await c q k s).picks = s.picks := rfl
@[simp] theorem await_inbox (c : Instr) (q : Call) (k : List Micro) (s : State) : (await c q k s).inbox = s.inbox := rfl
@[simp] theorem await_answers (c : Instr) (q : Call) (k : List Micro) (s : State) : (await c q k s).answers = s.answers := rfl
@[simp] theorem await_drawn (c : Instr) (q : Call) (k : List Micro) (s : State) : (await c q k s).drawn = s.drawn := rfl
@[simp] theorem await_latch (c : Instr) (q : Call) (k : List Micro) (s : State) : (await c q k s).latch = s.latch := rfl
@[simp] theorem await_lcd (c : Instr) (q : Call) (k : List Micro) (s : State) : (await c q k s).lcd = s.lcd := rfl
@[simp] theorem await_log (c : Instr) (q : Call) (k : List Micro) (s : State) : (await c q k s).log = s.log := rfl

@[simp] theorem afterBusInit_params (ok : Bool) (s : State) : (afterBusInit ok s).params = s.params := rfl
@[simp] theorem afterBusInit_phase (ok : Bool) (s : State) : (afterBusInit ok s).phase = s.phase := rfl
@[simp] theorem afterBusInit_cfgIdx (ok : Bool) (s : State) : (afterBusInit ok s).cfgIdx = s.cfgIdx := rfl
@[simp] theorem afterBusInit_bl (ok : Bool) (s : State) : (afterBusInit ok s).bl = s.bl := rfl
@[simp] theorem afterBusInit_faulted (ok : Bool) (s : State) : (afterBusInit ok s).faulted = s.faulted := rfl
@[simp] theorem afterBusInit_lastErr (ok : Bool) (s : State) : (afterBusInit ok s).lastErr = s.lastErr := rfl
@[simp] theorem afterBusInit_busy (ok : Bool) (s : State) : (afterBusInit ok s).busy = s.busy := rfl
@[simp] theorem afterBusInit_seq (ok : Bool) (s : State) : (afterBusInit ok s).seq = s.seq := rfl
@[simp] theorem afterBusInit_text (ok : Bool) (s : State) : (afterBusInit ok s).text = s.text := rfl
@[simp] theorem afterBusInit_raced (ok : Bool) (s : State) : (afterBusInit ok s).raced = s.raced := rfl
@[simp] theorem afterBusInit_picks (ok : Bool) (s : State) : (afterBusInit ok s).picks = s.picks := rfl
@[simp] theorem afterBusInit_inbox (ok : Bool) (s : State) : (afterBusInit ok s).inbox = s.inbox := rfl
@[simp] theorem afterBusInit_answers (ok : Bool) (s : State) : (afterBusInit ok s).answers = s.answers.tail := rfl
@[simp] theorem afterBusInit_drawn (ok : Bool) (s : State) : (afterBusInit ok s).drawn = s.drawn + 1 := rfl
@[simp] theorem afterBusInit_latch (ok : Bool) (s : State) : (afterBusInit ok s).latch = s.latch := rfl
@[simp] theorem afterBusInit_lcd (ok : Bool) (s : State) : (afterBusInit ok s).lcd = .unknown := rfl
@[simp] theorem afterBusInit_log (ok : Bool) (s : State) : (afterBusInit ok s).log = s.log ++ [.event (.init ok)] := rfl

@[simp] theorem afterBusWrite_params (v : Byte) (ok : Bool) (s : State) : (afterBusWrite v ok s).params = s.params := rfl
@[simp] theorem afterBusWrite_phase (v : Byte) (ok : Bool) (s : State) : (afterBusWrite v ok s).phase = s.phase := rfl
@[simp] theorem afterBusWrite_cfgIdx (v : Byte) (ok : Bool) (s : State) : (afterBusWrite v ok s).cfgIdx = s.cfgIdx := rfl
@[simp] theorem afterBusWrite_bl (v : Byte) (ok : Bool) (s : State) : (afterBusWrite v ok s).bl = s.bl := rfl
@[simp] theorem afterBusWrite_faulted (v : Byte) (ok : Bool) (s : State) : (afterBusWrite v ok s).faulted = s.faulted := rfl
@[simp] theorem afterBusWrite_lastErr (v : Byte) (ok : Bool) (s : State) : (afterBusWrite v ok s).lastErr = s.lastErr := rfl
@[simp] theorem afterBusWrite_busy (v : Byte) (ok : Bool) (s : State) : (afterBusWrite v ok s).busy = s.busy := rfl
@[simp] theorem afterBusWrite_seq (v : Byte) (ok : Bool) (s : State) : (afterBusWrite v ok s).seq = s.seq := rfl
@[simp] theorem afterBusWrite_text (v : Byte) (ok : Bool) (s : State) : (afterBusWrite v ok s).text = s.text := rfl
@[simp] theorem afterBusWrite_raced (v : Byte) (ok : Bool) (s : State) : (afterBusWrite v ok s).raced = s.raced := rfl
@[simp] theorem afterBusWrite_picks (v : Byte) (ok : Bool) (s : State) : (afterBusWrite v ok s).picks = s.picks := rfl
@[simp] theorem afterBusWrite_inbox (v : Byte) (ok : Bool) (s : State) : (afterBusWrite v ok s).inbox = s.inbox := rfl
@[simp] theorem afterBusWrite_answers (v : Byte) (ok : Bool) (s : State) : (afterBusWrite v ok s).answers = s.answers.tail := rfl
@[simp] theorem afterBusWrite_drawn (v : Byte) (ok : Bool) (s : State) : (afterBusWrite v ok s).drawn = s.drawn + 1 := rfl
@[simp] theorem afterBusWrite_latch (v : Byte) (ok : Bool) (s : State) : (afterBusWrite v ok s).latch = s.latch.afterWrite v ok := rfl
@[simp] theorem afterBusWrite_lcd (v : Byte) (ok : Bool) (s : State) : (afterBusWrite v ok s).lcd = s.lcd.afterWrite s.params v ok := rfl
@[simp] theorem afterBusWrite_log (v : Byte) (ok : Bool) (s : State) : (afterBusWrite v ok s).log = s.log ++ [.event (.write v ok)] := rfl

@[simp] theorem resetBlock_params (s : State) : (resetBlock s).params = s.params := rfl
@[simp] theorem resetBlock_phase (s : State) : (resetBlock s).phase = .uninit := rfl
@[simp] theorem resetBlock_cfgIdx (s : State) : (resetBlock s).cfgIdx = 0 := rfl
@[simp] theorem resetBlock_bl (s : State) : (resetBlock s).bl = s.params.backlightReset := rfl
@[simp] theorem resetBlock_faulted (s : State) : (resetBlock s).faulted = false := rfl
@[simp] theorem resetBlock_lastErr (s : State) : (resetBlock s).lastErr = .ok := rfl
@[simp] theorem resetBlock_busy (s : State) : (resetBlock s).busy = false := rfl
@[simp] theorem resetBlock_seq (s : State) : (resetBlock s).seq = none := rfl
@[simp] theorem resetBlock_text (s : State) : (resetBlock s).text = s.text := rfl
@[simp] theorem resetBlock_raced (s : State) : (resetBlock s).raced = s.raced := rfl
@[simp] theorem resetBlock_picks (s : State) : (resetBlock s).picks = s.picks := rfl
@[simp] theorem resetBlock_inbox (s : State) : (resetBlock s).inbox = s.inbox := rfl
@[simp] theorem resetBlock_answers (s : State) : (resetBlock s).answers = s.answers := rfl
@[simp] theorem resetBlock_drawn (s : State) : (resetBlock s).drawn = s.drawn := rfl
@[simp] theorem resetBlock_latch (s : State) : (resetBlock s).latch = .any := rfl
@[simp] theorem resetBlock_lcd (s : State) : (resetBlock s).lcd = .unknown := rfl
@[simp] theorem resetBlock_log (s : State) : (resetBlock s).log = s.log ++ [.reset s.callInProgress] := rfl

@[simp] theorem hostWritesText_params (a : TextAddr) (b : Byte) (s : State) : (hostWritesText a b s).params = s.params := rfl
@[simp] theorem hostWritesText_phase (a : TextAddr) (b : Byte) (s : State) : (hostWritesText a b s).phase = s.phase := rfl
@[simp] theorem hostWritesText_cfgIdx (a : TextAddr) (b : Byte) (s : State) : (hostWritesText a b s).cfgIdx = s.cfgIdx := rfl
@[simp] theorem hostWritesText_bl (a : TextAddr) (b : Byte) (s : State) : (hostWritesText a b s).bl = s.bl := rfl
@[simp] theorem hostWritesText_faulted (a : TextAddr) (b : Byte) (s : State) : (hostWritesText a b s).faulted = s.faulted := rfl
@[simp] theorem hostWritesText_lastErr (a : TextAddr) (b : Byte) (s : State) : (hostWritesText a b s).lastErr = s.lastErr := rfl
@[simp] theorem hostWritesText_busy (a : TextAddr) (b : Byte) (s : State) : (hostWritesText a b s).busy = s.busy := rfl
@[simp] theorem hostWritesText_seq (a : TextAddr) (b : Byte) (s : State) : (hostWritesText a b s).seq = s.seq := rfl
@[simp] theorem hostWritesText_text (a : TextAddr) (b : Byte) (s : State) : (hostWritesText a b s).text = s.text.write a b := rfl
@[simp] theorem hostWritesText_raced (a : TextAddr) (b : Byte) (s : State) : (hostWritesText a b s).raced =
    if s.busy then (a, s.text.read a) :: s.raced else s.raced := rfl
@[simp] theorem hostWritesText_picks (a : TextAddr) (b : Byte) (s : State) : (hostWritesText a b s).picks = s.picks := rfl
@[simp] theorem hostWritesText_inbox (a : TextAddr) (b : Byte) (s : State) : (hostWritesText a b s).inbox = s.inbox := rfl
@[simp] theorem hostWritesText_answers (a : TextAddr) (b : Byte) (s : State) : (hostWritesText a b s).answers = s.answers := rfl
@[simp] theorem hostWritesText_drawn (a : TextAddr) (b : Byte) (s : State) : (hostWritesText a b s).drawn = s.drawn := rfl
@[simp] theorem hostWritesText_latch (a : TextAddr) (b : Byte) (s : State) : (hostWritesText a b s).latch = s.latch := rfl
@[simp] theorem hostWritesText_lcd (a : TextAddr) (b : Byte) (s : State) : (hostWritesText a b s).lcd = s.lcd := rfl
@[simp] theorem hostWritesText_log (a : TextAddr) (b : Byte) (s : State) : (hostWritesText a b s).log = s.log := rfl

@[simp] theorem emit_params (s : State) (e : Event) : (s.emit e).params = s.params := rfl
@[simp] theorem emit_phase (s : State) (e : Event) : (s.emit e).phase = s.phase := rfl
@[simp] theorem emit_cfgIdx (s : State) (e : Event) : (s.emit e).cfgIdx = s.cfgIdx := rfl
@[simp] theorem emit_bl (s : State) (e : Event) : (s.emit e).bl = s.bl := rfl
@[simp] theorem emit_faulted (s : State) (e : Event) : (s.emit e).faulted = s.faulted := rfl
@[simp] theorem emit_lastErr (s : State) (e : Event) : (s.emit e).lastErr = s.lastErr := rfl
@[simp] theorem emit_busy (s : State) (e : Event) : (s.emit e).busy = s.busy := rfl
@[simp] theorem emit_seq (s : State) (e : Event) : (s.emit e).seq = s.seq := rfl
@[simp] theorem emit_text (s : State) (e : Event) : (s.emit e).text = s.text := rfl
@[simp] theorem emit_raced (s : State) (e : Event) : (s.emit e).raced = s.raced := rfl
@[simp] theorem emit_picks (s : State) (e : Event) : (s.emit e).picks = s.picks := rfl
@[simp] theorem emit_inbox (s : State) (e : Event) : (s.emit e).inbox = s.inbox := rfl
@[simp] theorem emit_answers (s : State) (e : Event) : (s.emit e).answers = s.answers := rfl
@[simp] theorem emit_drawn (s : State) (e : Event) : (s.emit e).drawn = s.drawn := rfl
@[simp] theorem emit_latch (s : State) (e : Event) : (s.emit e).latch = s.latch := rfl
@[simp] theorem emit_lcd (s : State) (e : Event) : (s.emit e).lcd = s.lcd := rfl
@[simp] theorem emit_log (s : State) (e : Event) : (s.emit e).log = s.log ++ [.event e] := rfl

@[simp] theorem readStatusPort_params (s : State) : (readStatusPort s).params = s.params := rfl
@[simp] theorem readStatusPort_phase (s : State) : (readStatusPort s).phase = s.phase := rfl
@[simp] theorem readStatusPort_cfgIdx (s : State) : (readStatusPort s).cfgIdx = s.cfgIdx := rfl
@[simp] theorem readStatusPort_bl (s : State) : (readStatusPort s).bl = s.bl := rfl
@[simp] theorem readStatusPort_faulted (s : State) : (readStatusPort s).faulted = s.faulted := rfl
@[simp] theorem readStatusPort_lastErr (s : State) : (readStatusPort s).lastErr = s.lastErr := rfl
@[simp] theorem readStatusPort_busy (s : State) : (readStatusPort s).busy = s.busy := rfl
@[simp] theorem readStatusPort_seq (s : State) : (readStatusPort s).seq = s.seq := rfl
@[simp] theorem readStatusPort_text (s : State) : (readStatusPort s).text = s.text := rfl
@[simp] theorem readStatusPort_raced (s : State) : (readStatusPort s).raced = s.raced := rfl
@[simp] theorem readStatusPort_picks (s : State) : (readStatusPort s).picks = s.picks := rfl
@[simp] theorem readStatusPort_inbox (s : State) : (readStatusPort s).inbox = s.inbox := rfl
@[simp] theorem readStatusPort_answers (s : State) : (readStatusPort s).answers = s.answers := rfl
@[simp] theorem readStatusPort_drawn (s : State) : (readStatusPort s).drawn = s.drawn := rfl
@[simp] theorem readStatusPort_latch (s : State) : (readStatusPort s).latch = s.latch := rfl
@[simp] theorem readStatusPort_lcd (s : State) : (readStatusPort s).lcd = s.lcd := rfl
@[simp] theorem readStatusPort_log (s : State) : (readStatusPort s).log = s.log ++ [.status s.statusWord] := rfl

@[simp] theorem loseDisplay_params (s : State) : (loseDisplay s).params = s.params := rfl
@[simp] theorem loseDisplay_phase (s : State) : (loseDisplay s).phase = s.phase := rfl
@[simp] theorem loseDisplay_cfgIdx (s : State) : (loseDisplay s).cfgIdx = s.cfgIdx := rfl
@[simp] theorem loseDisplay_bl (s : State) : (loseDisplay s).bl = s.bl := rfl
@[simp] theorem loseDisplay_faulted (s : State) : (loseDisplay s).faulted = s.faulted := rfl
@[simp] theorem loseDisplay_lastErr (s : State) : (loseDisplay s).lastErr = s.lastErr := rfl
@[simp] theorem loseDisplay_busy (s : State) : (loseDisplay s).busy = s.busy := rfl
@[simp] theorem loseDisplay_seq (s : State) : (loseDisplay s).seq = s.seq := rfl
@[simp] theorem loseDisplay_text (s : State) : (loseDisplay s).text = s.text := rfl
@[simp] theorem loseDisplay_raced (s : State) : (loseDisplay s).raced = s.raced := rfl
@[simp] theorem loseDisplay_picks (s : State) : (loseDisplay s).picks = s.picks := rfl
@[simp] theorem loseDisplay_inbox (s : State) : (loseDisplay s).inbox = s.inbox := rfl
@[simp] theorem loseDisplay_answers (s : State) : (loseDisplay s).answers = s.answers := rfl
@[simp] theorem loseDisplay_drawn (s : State) : (loseDisplay s).drawn = s.drawn := rfl
@[simp] theorem loseDisplay_latch (s : State) : (loseDisplay s).latch = s.latch := rfl
@[simp] theorem loseDisplay_lcd (s : State) : (loseDisplay s).lcd = .unknown := rfl
@[simp] theorem loseDisplay_log (s : State) : (loseDisplay s).log = s.log := rfl

@[simp] theorem afterMemRead_params (a : TextAddr) (s : State) : (afterMemRead a s).params = s.params := rfl
@[simp] theorem afterMemRead_phase (a : TextAddr) (s : State) : (afterMemRead a s).phase = s.phase := rfl
@[simp] theorem afterMemRead_cfgIdx (a : TextAddr) (s : State) : (afterMemRead a s).cfgIdx = s.cfgIdx := rfl
@[simp] theorem afterMemRead_bl (a : TextAddr) (s : State) : (afterMemRead a s).bl = s.bl := rfl
@[simp] theorem afterMemRead_faulted (a : TextAddr) (s : State) : (afterMemRead a s).faulted = s.faulted := rfl
@[simp] theorem afterMemRead_lastErr (a : TextAddr) (s : State) : (afterMemRead a s).lastErr = s.lastErr := rfl
@[simp] theorem afterMemRead_busy (a : TextAddr) (s : State) : (afterMemRead a s).busy = s.busy := rfl
@[simp] theorem afterMemRead_seq (a : TextAddr) (s : State) : (afterMemRead a s).seq = s.seq := rfl
@[simp] theorem afterMemRead_text (a : TextAddr) (s : State) : (afterMemRead a s).text = s.text := rfl
@[simp] theorem afterMemRead_raced (a : TextAddr) (s : State) : (afterMemRead a s).raced = s.raced := rfl
@[simp] theorem afterMemRead_picks (a : TextAddr) (s : State) : (afterMemRead a s).picks = if s.replaced a = [] then s.picks else s.picks.tail := rfl
@[simp] theorem afterMemRead_inbox (a : TextAddr) (s : State) : (afterMemRead a s).inbox = s.inbox := rfl
@[simp] theorem afterMemRead_answers (a : TextAddr) (s : State) : (afterMemRead a s).answers = s.answers := rfl
@[simp] theorem afterMemRead_drawn (a : TextAddr) (s : State) : (afterMemRead a s).drawn = s.drawn := rfl
@[simp] theorem afterMemRead_latch (a : TextAddr) (s : State) : (afterMemRead a s).latch = s.latch := rfl
@[simp] theorem afterMemRead_lcd (a : TextAddr) (s : State) : (afterMemRead a s).lcd = s.lcd := rfl
@[simp] theorem afterMemRead_log (a : TextAddr) (s : State) : (afterMemRead a s).log = s.log ++ [.event (.read a (s.readByte a))] := rfl

/-- Where no host write has raced, a read returns the byte the memory holds and uses up no choice. -/
theorem replaced_nil {s : State} (h : s.raced = []) (a : TextAddr) : s.replaced a = [] := by
  simp [State.replaced, h]
theorem readByte_of_no_race {s : State} {a : TextAddr} (h : s.replaced a = []) : s.readByte a = s.text.read a := by
  simp [State.readByte, h]

/-- A read returns the byte the memory holds or one that a racing write has replaced. -/
theorem readByte_mem (s : State) (a : TextAddr) : s.readByte a ∈ s.text.read a :: s.replaced a := by
  unfold State.readByte
  cases h : (s.replaced a)[s.nextPick]? with
  | none => exact List.mem_cons_self
  | some b => exact List.mem_cons_of_mem _ (List.mem_of_getElem? h)

end Sys2Proof.Machine
end

