-- ==== Sys2Proof/Laws/Ops.lean ====
section
/-! SUPPORT. What running pseudocode, drawing an answer and one undisturbed step can do, said once. -/

namespace Sys2Proof.Machine

@[simp] theorem proceed_params (c : Instr) (k : List Micro) (s : State) : (proceed c k s).params = s.params := by
  fun_induction proceed c k s <;> simp_all

/-- What running pseudocode never touches. -/
theorem proceed_text (c : Instr) (k : List Micro) (s : State) : (proceed c k s).text = s.text := by
  fun_induction proceed c k s <;> simp_all
theorem proceed_inbox (c : Instr) (k : List Micro) (s : State) : (proceed c k s).inbox = s.inbox := by
  fun_induction proceed c k s <;> simp_all
theorem proceed_faulted (c : Instr) (k : List Micro) (s : State) : (proceed c k s).faulted = s.faulted := by
  fun_induction proceed c k s <;> simp_all [ErrCode.isTransport]
theorem proceed_raced (c : Instr) (k : List Micro) (s : State) : (proceed c k s).raced = s.raced := by
  fun_induction proceed c k s <;> simp_all
theorem proceed_answers (c : Instr) (k : List Micro) (s : State) : (proceed c k s).answers = s.answers := by
  fun_induction proceed c k s <;> simp_all
theorem proceed_log (c : Instr) (k : List Micro) (s : State) :
   (proceed c k s).log = s.log ∨ ∃ r, (proceed c k s).log = s.log ++ [.responded c r] := by
  fun_induction proceed c k s <;> simp_all


theorem proceed_bl (c : Instr) (k : List Micro) (s : State) (h : ∀ v, Micro.setBl v ∉ k) : (proceed c k s).bl = s.bl := by
  fun_induction proceed c k s <;> simp_all
  next v _ _ _ => cases v <;> simp_all

theorem answerAt_draw (s : State) (j : Nat) (t : State) (h : t.answers = s.answers.tail) (h' : t.drawn = s.drawn + 1) :
    t.answerAt j = s.answerAt (j + 1) := by
  unfold State.answerAt
  rw [h, h', List.getElem?_tail, Nat.add_assoc, Nat.add_comm 1 j]

theorem nextAnswer_eq (s : State) : s.nextAnswer = s.answerAt 0 := by
  unfold State.nextAnswer State.answerAt
  cases s.answers <;> simp

theorem play_shift (ans : Nat → Bool) (m : Memory) (e : ErrCode) : ∀ (cs : List Call) (k : Nat),
    play (fun j => ans (j + 1)) m e cs k = play ans m e cs (k + 1)
  | [], _ => rfl
  | .busInit :: cs, k => by simp only [play, play_shift ans m e cs (k + 1)]
  | .write v :: cs, k => by simp only [play, play_shift ans m e cs (k + 1)]
  | .delay ms :: cs, k => by simp only [play, play_shift ans m e cs k]
  | .read a :: cs, k => by simp only [play, play_shift ans m e cs k]

theorem run_succ_of_step {s t : State} (h : step s = .next t) (n : Nat) : run (n + 1) s = run n t := by
  simp [run, h]

theorem step_quiet {s : State} (hv : s.params.valid = true) (hi : s.inbox = []) : step s = blockStep s := by
  simp [step, hv, hi]

theorem step_advance {s : State} {r : Seq} (hv : s.params.valid = true) (hi : s.inbox = []) (hb : s.busy = true)
    (hs : s.seq = some r) : step s = .next (advance r s) := by
  simp [step_quiet hv hi, blockStep, hb, hs]

section
variable {c : Instr} {k : List Micro}

theorem advance_write (v : Byte) (s : State) : advance ⟨c, .write v, k⟩ s =
    if s.answerAt 0 = true then proceed c k (afterBusWrite v true s)
    else raise c .transportWriteFailed (afterBusWrite v false s) := by
  simp only [advance, nextAnswer_eq]
  cases s.answerAt 0 <;> rfl

theorem advance_read (a : TextAddr) (s : State) : advance ⟨c, .read a, k⟩ s =
    if s.readByte a = terminator then respondOk c (afterMemRead a s)
    else proceed c (sendMessage s.params (s.readByte a) .data ++ .nextChar a :: k) (afterMemRead a s) :=
  rfl

theorem advance_busInit (s : State) : advance ⟨c, .busInit, k⟩ s =
    if s.answerAt 0 = true then proceed c k (afterBusInit true s)
    else raise c .transportInitFailed (afterBusInit false s) := by
  simp only [advance, nextAnswer_eq]
  cases s.answerAt 0 <;> rfl

end

end Sys2Proof.Machine
end

