-- ==== Sys2Proof/Laws/Invariant.lean ====
section
/-! SUPPORT. The invariant of Safety.lean through the shared operations: running pseudocode, the two ends of a command,
completing a call and accepting a command. -/

namespace Sys2Proof.Machine

/-- One more entry on the record, for each of the three readings of it. -/
theorem initStatus_append (l : List Entry) (e : Entry) : initStatus (l ++ [e]) = initStep (initStatus l) e := by
  simp [initStatus]
theorem lastResponse_append (l : List Entry) (e : Entry) : lastResponse (l ++ [e]) = responseStep (lastResponse l) e := by
  simp [lastResponse]
theorem failed_append (l : List Entry) (e : Entry) : failedSinceReset (l ++ [e]) = failedStep (failedSinceReset l) e := by
  simp [failedSinceReset]

/-- A display command's pseudocode keeps what the invariant says of the sequencer and the record. -/
theorem proceed_display_inv (c : Instr) (k : List Micro) (s : State) (hc : c.isInit = false) (hk : k.all Micro.inDisplay = true)
   (hp : PhaseSettled s) (hr : s.lastErr.response = lastResponse s.log) (hb : s.busy = true) :
   SequencerInv (proceed c k s) ∧ (proceed c k s).lastErr.response = lastResponse (proceed c k s).log
      ∧ failedSinceReset (proceed c k s).log = failedSinceReset s.log := by
  fun_induction proceed c k s <;>
   simp_all [SequencerInv, PhaseSettled, SeqInv, Micro.inDisplay, initStatus_append, initStep, lastResponse_append, responseStep, failed_append, failedStep]

/-- Only OK responds 0. -/
theorem response_eq_zero (e : ErrCode) : e.response = 0#4 ↔ e = .ok := by cases e <;> decide

theorem initRest_cons {i : Fin 6} {m : Micro} {k : List Micro} (h : InitRest i (m :: k)) :
    m.inInit = true ∧ ((k = [] ∧ m = .setPhase .ready ∧ i = 5) ∨ InitRest (lastCfg i [m]) k) := by
  obtain ⟨h1, h2, h3⟩ := h
  simp only [List.all_cons, Bool.and_eq_true] at h1
  refine ⟨h1.1, ?_⟩
  cases k with
  | nil =>
    left
    simp at h2
    subst h2
    exact ⟨rfl, rfl, h3⟩
  | cons m' k =>
    right
    refine ⟨h1.2, by simpa using h2, ?_⟩
    cases m <;> simpa [lastCfg] using h3

theorem initRest_release {i n rs k} (v) (h : InitRest i (.enable n rs :: k)) : InitRest i (.release v :: k) := by
  obtain ⟨h1, h2, h3⟩ := h
  refine ⟨by simpa [Micro.inInit] using h1, ?_, h3⟩
  cases k with
  | nil => simp at h2
  | cons m k => simpa using h2

/-- INIT's pseudocode keeps what the invariant says of the sequencer and the record. -/
theorem proceed_init_inv (c : Instr) (k : List Micro) (s : State) (hc : c.isInit = true)
    (hk : InitRest s.cfgIdx k ∨ (k = [] ∧ s.phase = .ready ∧ s.cfgIdx = 5))
   (hp : initStatus s.log = .running) (hr : s.lastErr.response = lastResponse s.log) (hb : s.busy = true) :
   SequencerInv (proceed c k s) ∧ (proceed c k s).lastErr.response = lastResponse (proceed c k s).log
      ∧ failedSinceReset (proceed c k s).log = failedSinceReset s.log := by
  fun_induction proceed c k s
  case case1 s => 
    rcases hk with hk | hk
    · simp [InitRest] at hk
    · simp_all [SequencerInv, PhaseSettled, initStatus_append, initStep, lastResponse_append, responseStep, failed_append, failedStep, response_eq_zero]
  all_goals
    rcases hk with hk | hk
    swap
    · simp at hk
    obtain ⟨h1, h2⟩ := initRest_cons hk
    first
    | (simp [Micro.inInit] at h1; done)
    | skip
  case case6.inl | case7.inl | case8.inl | case10.inl => simp_all [SequencerInv, SeqInv, lastCfg]
  case case9.inl =>
    have h3 := fun v => initRest_release v hk
    simp_all [SequencerInv, SeqInv, lastCfg]
  case case11.inl ih =>
    refine ih ?_ hp hr hb
    rcases h2 with ⟨hk, hq, h5⟩ | h2
    · right; exact ⟨hk, by simpa using hq, h5⟩
    · left; exact h2
  case case12.inl ih =>
    refine ih (Or.inl ?_) hp hr hb
    simpa [lastCfg] using h2

/-- What `PhaseSettled` reads. -/
theorem settled_of (s t : State) (h : PhaseSettled s) (h1 : initStatus t.log = initStatus s.log)
    (h2 : t.phase = s.phase) (h3 : t.cfgIdx = s.cfgIdx) : PhaseSettled t := by
  unfold PhaseSettled at *; rw [h1, h2, h3]; exact h

theorem raise_display_inv (c : Instr) (e : ErrCode) (s : State) (hc : c.isInit = false) 
   (hp : PhaseSettled s) :
   SequencerInv (raise c e s) := by
   simp_all [SequencerInv, PhaseSettled, initStatus_append, initStep]
theorem raise_init_inv (c : Instr) (e : ErrCode) (s : State) (hc : c.isInit = true) (he : e ≠ .ok) :
   SequencerInv (raise c e s) := by
   have : e.response ≠ 0#4 := by rw [Ne, response_eq_zero]; exact he
   simp_all [SequencerInv, PhaseSettled, initStatus_append, initStep]

/-- Completing the call in progress keeps the invariant. -/
theorem advance_inv (r : Seq) (s : State) (hi : Inv s) (hs : s.seq = some r) : Inv (advance r s) := by
  obtain ⟨hv, hw, hf, hl, hq⟩ := hi
  simp only [SequencerInv, hs] at hq
  obtain ⟨hb, hz, hI, hD⟩ := hq
  obtain ⟨c, call, k⟩ := r
  cases hc : c.isInit with
  | true =>
    obtain ⟨h1, h2, h3⟩ := hI hc
    cases call with
    | read a => exact absurd rfl (h3 a)
    | write v =>
      rw [advance_write]
      split
      · obtain ⟨a1, a2, a3⟩ := proceed_init_inv c k (afterBusWrite v true s) hc (.inl h2)
          (by simp [initStatus_append, h1, initStep])
          (by simp [lastResponse_append, responseStep, hl]) hb
        exact ⟨by simp [hv], by simp [proceed_text, hw], by rw [proceed_faulted, a3]; simp [failed_append, failedStep, hf, Event.failed], a2, a1⟩
      · exact ⟨hv, hw, by simp [failedSinceReset, failedStep, Event.failed, ErrCode.isTransport],
          by simp [lastResponse, responseStep], raise_init_inv _ _ _ hc (by simp)⟩
    | busInit =>
      rw [advance_busInit]
      split
      · obtain ⟨a1, a2, a3⟩ := proceed_init_inv c k (afterBusInit true s) hc (.inl h2)
          (by simp [initStatus_append, h1, initStep])
          (by simp [lastResponse_append, responseStep, hl]) hb
        exact ⟨by simp [hv], by simp [proceed_text, hw], by rw [proceed_faulted, a3]; simp [failed_append, failedStep, hf, Event.failed], a2, a1⟩
      · exact ⟨hv, hw, by simp [failedSinceReset, failedStep, Event.failed, ErrCode.isTransport],
          by simp [lastResponse, responseStep], raise_init_inv _ _ _ hc (by simp)⟩
    | delay ms =>
      obtain ⟨a1, a2, a3⟩ := proceed_init_inv c k (s.emit (.delay ms)) hc (.inl h2)
          (by simp [initStatus_append, h1, initStep])
          (by simp [lastResponse_append, responseStep, hl]) hb
      exact ⟨by simp [advance, hv], by simp [advance, proceed_text, hw], by simp only [advance]; rw [proceed_faulted, a3]; simp [failed_append, failedStep, hf, Event.failed], a2, a1⟩
  | false =>
    obtain ⟨h1, h2, h3⟩ := hD hc
    cases call with
    | busInit => exact absurd rfl h3
    | write v =>
      rw [advance_write]
      split
      · obtain ⟨a1, a2, a3⟩ := proceed_display_inv c k (afterBusWrite v true s) hc h2 (settled_of s _ h1 (by simp [initStatus_append, initStep]) rfl rfl) (by simp [lastResponse_append, responseStep, hl]) hb
        exact ⟨by simp [hv], by simp [proceed_text, hw], by rw [proceed_faulted, a3]; simp [failed_append, failedStep, hf, Event.failed], a2, a1⟩
      · exact ⟨hv, hw, by simp [failedSinceReset, failedStep, Event.failed, ErrCode.isTransport],
          by simp [lastResponse, responseStep], raise_display_inv _ _ _ hc (settled_of s _ h1 (by simp [initStatus_append, initStep]) rfl rfl)⟩
    | delay ms =>
      obtain ⟨a1, a2, a3⟩ := proceed_display_inv c k (s.emit (.delay ms)) hc h2 (settled_of s _ h1 (by simp [initStatus_append, initStep]) rfl rfl) (by simp [lastResponse_append, responseStep, hl]) hb
      exact ⟨by simp [advance, hv], by simp [advance, proceed_text, hw], by simp only [advance]; rw [proceed_faulted, a3]; simp [failed_append, failedStep, hf, Event.failed], a2, a1⟩
    | read a =>
      have hset : PhaseSettled (afterMemRead a s) := settled_of s _ h1 (by simp [initStatus_append, initStep]) rfl rfl
      rw [advance_read]
      split
      · refine ⟨hv, hw, by simp [hf, failedSinceReset, failedStep, Event.failed], by simp [lastResponse, responseStep], ?_⟩
        simp [SequencerInv]
        exact settled_of s _ h1 (by simp [initStatus, initStep, hc]) rfl rfl
      · obtain ⟨a1, a2, a3⟩ := proceed_display_inv c (sendMessage s.params (s.readByte a) .data ++ .nextChar a :: k) (afterMemRead a s) hc (by simpa [sendMessage, sendNibble, Micro.inDisplay] using h2) hset (by simp [lastResponse_append, responseStep, hl]) hb
        exact ⟨by simp [hv], by simp [proceed_text, hw], by rw [proceed_faulted, a3]; simp [failed_append, failedStep, hf, Event.failed], a2, a1⟩

/-- Accepting a command keeps the invariant if its pseudocode does. -/
theorem start_inv {c : Instr} {k : List Micro} {s t : State} (hi : Inv s) (h : start c k s = .next t)
   (hk : s.busy = false → let s' := { s.record (.accepted c) with busy := true, raced := [] }
      PhaseSettled s → SequencerInv (proceed c k s') ∧ (proceed c k s').lastErr.response = lastResponse (proceed c k s').log
        ∧ failedSinceReset (proceed c k s').log = failedSinceReset s.log) : Inv t := by
  obtain ⟨hv, hw, hf, hl, hq⟩ := hi
  cases hb : s.busy with
  | true => simp [start, hv, hb] at h
  | false =>
    have hp : PhaseSettled s := by
      unfold SequencerInv at hq
      split at hq
      · simp_all
      · exact hq.2
    simp only [start, hv, hb] at h
    obtain ⟨a1, a2, a3⟩ := hk hb hp
    simp at h
    subst h
    exact ⟨by simp [hv], by simp [proceed_text, hw], by rw [proceed_faulted]; exact hf.trans a3.symm, a2, a1⟩

/-- Accepting a command with a display pseudocode keeps the invariant. -/
theorem start_display_inv {c : Instr} {k : List Micro} {s t : State} (hi : Inv s) (h : start c k s = .next t)
    (hc : c.isInit = false) (hd : k.all Micro.inDisplay = true) : Inv t := by
  refine start_inv hi h (fun hb => ?_)
  intro s' hp
  have := proceed_display_inv c k s' hc hd (settled_of s s' hp (by simp [s', initStatus_append, initStep, hc]) rfl rfl) (by simp [s', lastResponse_append, responseStep, hi.2.2.2.1]) rfl
  refine ⟨this.1, this.2.1, this.2.2.trans ?_⟩
  simp [s', failed_append, failedStep]

end Sys2Proof.Machine
end

