-- ==== Sys2Proof/Laws/Message.lean ====
section
/-! SUPPORT. Undisturbed steps inside a message: one write, one delay, and what `proceed` does not read. -/

namespace Sys2Proof.Machine

/-- What the sequencer held before is not read. -/
theorem proceed_seq (c : Instr) (q : Option Seq) : ∀ (k : List Micro) (s : State), proceed c k { s with seq := q } = proceed c k s := by
  intro k
  induction k with
  | nil => intro s; rfl
  | cons m k ih =>
    intro s
    cases m with
    | gateReady => simp only [proceed]; split <;> [rfl; exact ih s]
    | checkColumn => simp only [proceed]; split <;> [rfl; exact ih s]
    | delay => simp only [proceed]; split <;> [exact ih s; rfl]
    | setPhase p => exact ih { s with phase := p }
    | setCfg p => exact ih { s with cfgIdx := p }
    | setBl p => exact ih { s with bl := p }
    | nextChar => simp only [proceed]; split <;> rfl
    | _ => rfl

/-- One write that is answered `true`. -/
theorem run_write {c : Instr} {v : Byte} {k : List Micro} {s : State} (n : Nat) (hv : s.params.valid = true)
    (hb : s.busy = true) (hi : s.inbox = []) (ha : s.answerAt 0 = true) :
    run (n + 1) (await c (.write v) k s) = run n (proceed c k (afterBusWrite v true s)) := by
  have hstep : step (await c (.write v) k s) = .next (advance ⟨c, .write v, k⟩ (await c (.write v) k s)) :=
    step_advance (by simpa using hv) (by simpa using hi) (by simpa using hb) rfl
  rw [advance_write, show (await c (.write v) k s).answerAt 0 = s.answerAt 0 from rfl, ha, if_pos rfl] at hstep
  rw [run_succ_of_step hstep n]
  exact congrArg (run n) (proceed_seq c (some ⟨c, .write v, k⟩) k (afterBusWrite v true s))

/-- One delay that is not 0. -/
theorem run_delay {c : Instr} {ms : Nat} {k : List Micro} {s : State} (n : Nat) (hv : s.params.valid = true)
    (hb : s.busy = true) (hi : s.inbox = []) (h : ms ≠ 0) :
    run (n + 1) (proceed c (.delay ms :: k) s) = run n (proceed c k (s.emit (.delay ms))) := by
  have hstep : step (await c (.delay ms) k s) = .next (advance ⟨c, .delay ms, k⟩ (await c (.delay ms) k s)) :=
    step_advance (by simpa using hv) (by simpa using hi) (by simpa using hb) rfl
  rw [proceed, if_neg h, run_succ_of_step hstep n]
  exact congrArg (run n) (proceed_seq c (some ⟨c, .delay ms, k⟩) k (s.emit (.delay ms)))

/-- Four writes, and the settle delay if there is one. -/
theorem messageEvents_length (p bl b rs) : (messageEvents p bl b rs).length = (if settle p b rs = 0 then 0 else 1) + 4 := by
  simp [messageEvents]; split <;> rfl

/-- An open gate lets the pseudocode go on. -/
theorem gate_open {s : State} (h : gateCloses s = false) (c : Instr) (k : List Micro) :
    proceed c (.gateReady :: k) s = proceed c k s := by
  have h : (s.params.requireReady && s.phase != .ready) = false := h
  simp only [proceed, h]; rfl

end Sys2Proof.Machine
end

