-- ==== Sys2Proof/Laws/Parameters.lean ====
section
/-! SUPPORT. What legal parameters say of the bits of an expander byte (spec/00_scope.md R14). -/

namespace Sys2Proof

/-- The clauses of `Params.valid` about the lines. -/
theorem valid_cases {p : Params} (h : p.valid = true) :
    (p.enBit < 4 ∧ p.blPos < 4 ∧ p.enBit ≠ p.blPos ∧ p.payloadShift = 4 ∧
      p.rsAllowed p.rsData = true ∧ p.rsAllowed p.rsCmd = true ∧ p.rsData ≠ p.rsCmd) := by
  simp [Params.valid] at h; simp_all

/-- A register-select value is on no other field's line. -/
theorem rsAllowed_bits {p : Params} {v : Byte} (h : p.rsAllowed v = true) :
   v.getLsbD p.enBit = false ∧ v.getLsbD p.blPos = false ∧ v.extractLsb' 4 4 = 0 := by
  simp only [Params.rsAllowed, Bool.or_eq_true, List.any_eq_true, List.mem_range, Bool.and_eq_true, beq_iff_eq, bne_iff_ne] at h
  rcases h with rfl | ⟨k, hk, ⟨rfl, h1⟩, h2⟩
  · simp
  · refine ⟨?_, ?_, ?_⟩
    · simp; omega
    · simp; omega
    · have : ∀ k, k < 4 → (1#8 <<< k).extractLsb' 4 4 = 0 := by decide
      exact this k hk

end Sys2Proof
end

