-- ==== Sys2Proof/Laws/PerInstr.lean ====
section
/-! SUPPORT. For every command: its word is the word of its own row of spec/30_encoding.md R92 and of no other, and an
illegal word fits no row (R94). -/

namespace Sys2Proof.Laws.RowOfEncode

/-- R92's rows find the command in its word. -/
def Statement (i : Instr) : Prop := i.WellFormed → rowOf (encode i) = i.row

theorem init : Statement .init := fun _ => by decide

theorem clear : Statement .clear := fun _ => by decide

theorem printc (ch : Byte) : Statement (.printc ch) := fun _ => by
  revert ch; decide

theorem prints (addr : TextAddr) : Statement (.prints addr) := fun _ => by
  have h : ∀ p ∈ patterns, p.fits (0b0011#4 ++ addr) = (p.mnemonic == .prints) := by
    intro p hp
    rw [fits_append]
    simp only [patterns, List.mem_cons, List.not_mem_nil, or_false] at hp
    rcases hp with rfl|rfl|rfl|rfl|rfl|rfl|rfl|rfl <;> simp [opField, argField]
  show (patterns.find? (fun p => p.fits (0b0011#4 ++ addr))).map _ = _
  rw [List.find?_congr h]; rfl

theorem setcur (row : Row) (col : Byte) : Statement (.setcur row col) := fun _ => by
  cases row <;> revert col <;> decide

theorem curon : Statement .curon := fun _ => by decide

theorem curoff : Statement .curoff := fun _ => by decide

theorem setbl (v : Bool) : Statement (.setbl v) := fun _ => by cases v <;> decide

theorem reserved (w : Word) : Statement (.reserved w) := fun h => by
  have h' : isIllegal w = true := h
  show (patterns.find? (fun p => p.fits w)).map _ = none
  rw [← opField_argField w] at h' ⊢
  generalize opField w = o at *
  generalize argField w = a at *
  simp only [isIllegal, opField_append, argField_append] at h'
  simp only [Option.map_eq_none_iff, List.find?_eq_none]
  intro p hp
  rw [fits_append]
  simp only [patterns, List.mem_cons, List.not_mem_nil, or_false] at hp
  have hF : ∀ o : BitVec 4, o &&& 0xF#4 = o := by decide
  rcases hp with rfl|rfl|rfl|rfl|rfl|rfl|rfl|rfl <;> simp only [opField, argField] <;> intro hc <;>
    simp [hF] at hc <;> obtain ⟨rfl, hc⟩ := hc <;> simp [formatOf, Format.reservedBits] at h' <;> exact h' hc

end Sys2Proof.Laws.RowOfEncode
end

