-- ==== Sys2Proof/Laws/Phases.lean ====
section
/-! SUPPORT. The values `S.phase` and `S.cfg_idx` have at each call while INIT's pseudocode runs (spec/41_init.md R152). -/

namespace Sys2Proof.Machine

/-- The calls a rest of INIT's pseudocode makes, each with the phase and the index it is in progress with. -/
def restStages (p : Params) (bl : Bool) : Phase → Fin 6 → List Micro → List (Call × Phase × Fin 6)
  | _, _, [] => []
  | _, i, .setPhase q :: k => restStages p bl q i k
  | q, _, .setCfg i :: k => restStages p bl q i k
  | q, i, .busInit :: k => (.busInit, q, i) :: restStages p bl q i k
  | q, i, .delay ms :: k => stage q i (delayCalls ms) ++ restStages p bl q i k
  | q, i, .enable n rs :: k => stage q i (nibbleCalls p bl n rs) ++ restStages p bl q i k
  | q, i, .release v :: k => (.write v, q, i) :: restStages p bl q i k
  | _, _, .gateReady :: _ => []
  | _, _, .checkColumn _ :: _ => []
  | _, _, .setBl _ :: _ => []
  | _, _, .readChar _ :: _ => []
  | _, _, .nextChar _ :: _ => []
  | _, _, .illegal :: _ => []

/-- How many answers the first `j` of these calls draw. -/
def drawsBefore (j : Nat) (l : List (Call × Phase × Fin 6)) : Nat := (l.take j).countP (fun x => x.1.isTransport)

/-- From every undisturbed state, `j` events into the pseudocode `k` with every answer `true`, call number `j` of `restStages` is
in progress with its phase and index. -/
def StagesOf (c : Instr) (p : Params) (bl : Bool) (k : List Micro) : Prop :=
  ∀ (s : State) (j : Nat) (x : Call × Phase × Fin 6), s.params = p → s.bl = bl → s.inbox = [] → s.busy = true →
    (restStages p bl s.phase s.cfgIdx k)[j]? = some x →
    (∀ m, m < drawsBefore j (restStages p bl s.phase s.cfgIdx k) → s.answerAt m = true) →
    ∃ u, run j (proceed c k s) = .next u ∧ u.busy = true ∧ u.callInProgress = some x.1 ∧ u.phase = x.2.1
      ∧ u.cfgIdx = x.2.2 ∧ u.bl = bl

section
variable {c : Instr} {p : Params} {bl : Bool} {k k' : List Micro}

theorem stagesOf_nil : StagesOf c p bl [] := by
  rintro s j x rfl rfl hi hb hx
  simp [restStages] at hx

theorem stagesOf_setPhase {q : Phase} (h : StagesOf c p bl k) : StagesOf c p bl (.setPhase q :: k) :=
  fun s j x hp hbl hi hb hx ha => h { s with phase := q } j x hp hbl hi hb hx ha

theorem stagesOf_setCfg {i : Fin 6} (h : StagesOf c p bl k) : StagesOf c p bl (.setCfg i :: k) :=
  fun s j x hp hbl hi hb hx ha => h { s with cfgIdx := i } j x hp hbl hi hb hx ha

/-- A pseudocode whose first call is `call` and goes on as `k'` once it is answered `true`. -/
theorem stagesOf_call (hv : p.valid = true) {call : Call} (h : StagesOf c p bl k') (after : State → State)
    (hk : ∀ s : State, s.params = p → s.bl = bl → proceed c k s = await c call k' s)
    (hr : ∀ q i, restStages p bl q i k = (call, q, i) :: restStages p bl q i k')
    (hadv : ∀ s : State, (call.isTransport = true → s.answerAt 0 = true) →
      advance ⟨c, call, k'⟩ s = proceed c k' (after s))
    (hkeep : ∀ s : State, (after s).params = s.params ∧ (after s).bl = s.bl ∧ (after s).inbox = s.inbox
      ∧ (after s).busy = s.busy ∧ (after s).phase = s.phase ∧ (after s).cfgIdx = s.cfgIdx)
    (hdraw : ∀ (s : State) (m : Nat), (after s).answerAt m = s.answerAt (m + if call.isTransport then 1 else 0)) :
    StagesOf c p bl k := by
  rintro s j x rfl rfl hi hb hx ha
  rw [hk s rfl rfl]
  rw [hr] at hx ha
  cases j with
  | zero =>
    obtain rfl := Option.some.inj hx
    exact ⟨_, rfl, hb, by simp [State.callInProgress, hb], rfl, rfl, rfl⟩
  | succ j =>
    have hfirst : call.isTransport = true → s.answerAt 0 = true := fun ht => ha 0 (by simp [drawsBefore, ht])
    have hstep : step (await c call k' s) = .next (proceed c k' (after (await c call k' s))) := by
      rw [step_advance (r := ⟨c, call, k'⟩) (by simpa using hv) (by simpa using hi) (by simpa using hb) rfl]
      exact congrArg _ (hadv _ hfirst)
    obtain ⟨h1, h2, h3, h4, h5, h6⟩ := hkeep (await c call k' s)
    rw [run_succ_of_step hstep]
    refine h _ j x h1 h2 (h3.trans hi) (h4.trans hb) (by simpa [h5, h6] using hx) (fun m hm => ?_)
    rw [hdraw]
    refine ha _ ?_
    simp only [h5, h6, await_phase, await_cfgIdx] at hm
    simp only [drawsBefore, List.take_succ_cons, List.countP_cons] at hm ⊢
    split <;> omega

theorem stagesOf_release (hv : p.valid = true) {v : Byte} (h : StagesOf c p bl k) : StagesOf c p bl (.release v :: k) :=
  stagesOf_call hv h (afterBusWrite v true) (fun _ _ _ => rfl) (fun _ _ => rfl)
    (fun s hs => by rw [advance_write, if_pos (hs rfl)]) (fun _ => ⟨rfl, rfl, rfl, rfl, rfl, rfl⟩)
    (fun s m => answerAt_draw s m _ rfl rfl)

theorem stagesOf_enable (hv : p.valid = true) {n : Nibble} {rs : RegSelect} (h : StagesOf c p bl k) :
    StagesOf c p bl (.enable n rs :: k) :=
  stagesOf_call hv (stagesOf_release hv h) (afterBusWrite _ true) (fun s hp hb => by simp [proceed, hp, hb])
    (fun _ _ => rfl) (fun s hs => by rw [advance_write, if_pos (hs rfl)]) (fun _ => ⟨rfl, rfl, rfl, rfl, rfl, rfl⟩)
    (fun s m => answerAt_draw s m _ rfl rfl)

theorem stagesOf_busInit (hv : p.valid = true) (h : StagesOf c p bl k) : StagesOf c p bl (.busInit :: k) :=
  stagesOf_call hv h (afterBusInit true) (fun _ _ _ => rfl) (fun _ _ => rfl)
    (fun s hs => by rw [advance_busInit, if_pos (hs rfl)]) (fun _ => ⟨rfl, rfl, rfl, rfl, rfl, rfl⟩)
    (fun s m => answerAt_draw s m _ rfl rfl)

theorem stagesOf_delay (hv : p.valid = true) {ms : Nat} (h : StagesOf c p bl k) : StagesOf c p bl (.delay ms :: k) := by
  by_cases hms : ms = 0
  · subst hms; exact h
  · exact stagesOf_call hv (call := .delay ms) h (fun s => s.emit (.delay ms)) (fun _ _ _ => by simp [proceed, hms])
      (fun _ _ => by simp [restStages, delayCalls, hms, stage]) (fun _ _ => rfl) (fun _ => ⟨rfl, rfl, rfl, rfl, rfl, rfl⟩)
      (fun _ _ => rfl)

/-- INIT's whole pseudocode. -/
theorem stagesOf_init (hv : p.valid = true) : StagesOf c p bl (initProgram p) := by
  have boot {q n ms} {k : List Micro} (h : StagesOf c p bl k) : StagesOf c p bl (bootStep q n ms ++ k) :=
    stagesOf_setPhase (stagesOf_enable hv (stagesOf_delay hv h))
  have config {i} {k : List Micro} (h : StagesOf c p bl k) : StagesOf c p bl (configStep p i ++ k) :=
    stagesOf_setCfg (stagesOf_enable hv (stagesOf_enable hv (stagesOf_delay hv h)))
  simp only [initProgram, List.append_assoc, List.cons_append, List.nil_append]
  refine stagesOf_setPhase (stagesOf_setCfg (stagesOf_busInit hv (stagesOf_delay hv ?_)))
  refine boot (boot (boot (stagesOf_setPhase ?_)))
  exact config (config (config (config (config (config (stagesOf_setPhase stagesOf_nil))))))

theorem restStages_init (q : Phase) (i : Fin 6) : restStages p bl q i (initProgram p) = initStages p bl := by
  simp [initProgram, bootStep, configStep, sendNibble, sendMessage, restStages, initStages, stage, messageCalls, Params.cfgByte]

end

end Sys2Proof.Machine
end

