-- ==== Sys2Proof/Laws/Run.lean ====
section
/-! SUPPORT. A command that runs undisturbed runs to its end, along the calls its pseudocode has left and the answers the
transport gives: one lemma per statement of the pseudocode. -/

namespace Sys2Proof.Machine

/-- The calls a rest of pseudocode makes if none fails, and the code it ends with. -/
def restCalls (p : Params) (bl : Bool) (m : Memory) : List Micro → List Call × ErrCode
  | [] => ([], .ok)
  | .gateReady :: k => restCalls p bl m k
  | .checkColumn _ :: k => restCalls p bl m k
  | .busInit :: k => (.busInit :: (restCalls p bl m k).1, (restCalls p bl m k).2)
  | .delay ms :: k => (delayCalls ms ++ (restCalls p bl m k).1, (restCalls p bl m k).2)
  | .enable n rs :: k => (nibbleCalls p bl n rs ++ (restCalls p bl m k).1, (restCalls p bl m k).2)
  | .release v :: k => (.write v :: (restCalls p bl m k).1, (restCalls p bl m k).2)
  | .setPhase _ :: k => restCalls p bl m k
  | .setCfg _ :: k => restCalls p bl m k
  | .setBl _ :: k => restCalls p bl m k
  | .readChar a :: _ => textCalls p bl m (Memory.size - a.toNat) a
  | .nextChar a :: _ =>
    if a = lastText then ([], .outOfRange) else textCalls p bl m (Memory.size - (a + 1).toNat) (a + 1)
  | .illegal :: _ => ([], .illegalCommand)

/-- `S.phase` after a rest of pseudocode has run without error. -/
def lastPhase (q : Phase) : List Micro → Phase
  | [] => q
  | .setPhase p :: k => lastPhase p k
  | .readChar _ :: _ => q
  | .nextChar _ :: _ => q
  | _ :: k => lastPhase q k

/-- No gate, bounds test or SETBL is left. -/
def Micro.plain : Micro → Bool
  | .gateReady => false
  | .checkColumn _ => false
  | .setBl _ => false
  | .delay _ => true
  | .enable _ _ => true
  | .release _ => true
  | .readChar _ => true
  | .nextChar _ => true
  | .busInit => true
  | .setPhase _ => true
  | .setCfg _ => true
  | .illegal => true

/-- How a command that runs undisturbed from `s` with the pseudocode `k` left is found when it has ended. -/
structure Ended (c : Instr) (s : State) (k : List Micro) (r : List Event × ErrCode) (u : State) : Prop where
  busy : u.busy = false
  seq : u.seq = none
  params : u.params = s.params
  text : u.text = s.text
  inbox : u.inbox = s.inbox
  bl : u.bl = s.bl
  log : u.log = s.log ++ (r.1.map .event ++ [.responded c r.2.response])
  lastErr : u.lastErr = r.2
  faulted : u.faulted = (s.faulted || r.2.isTransport)
  drawn : u.drawn = s.drawn + r.1.countP Event.isTransport
  answers : u.answers = s.answers.drop (r.1.countP Event.isTransport)
  latch : u.latch = s.latch.afterEvents r.1
  lcd : u.lcd = if c.isInit && r.2 == .ok then .expectsHigh [] else if r.2 = .outOfRange then .unknown
    else s.lcd.afterEvents s.params r.1
  initPhase : c.isInit = true → u.phase = if r.2 = .ok then lastPhase s.phase k else .faulted
  display : c.isInit = false → k.all Micro.inDisplay = true → u.phase = s.phase ∧ u.cfgIdx = s.cfgIdx

theorem restCalls_append_message (p bl m b rs k) : restCalls p bl m (sendMessage p b rs ++ k)
    = (messageCalls p bl b rs ++ (restCalls p bl m k).1, (restCalls p bl m k).2) := by
  simp [sendMessage, sendNibble, restCalls, messageCalls]

theorem lastPhase_append_message (p b rs k q) : lastPhase q (sendMessage p b rs ++ k) = lastPhase q k := by
  simp [sendMessage, sendNibble, lastPhase]


/-- From every undisturbed state with these parameters, backlight and text, the pseudocode `k` runs to the end its calls
and the transport's answers give it. -/
def RunsOut (c : Instr) (p : Params) (bl : Bool) (m : Memory) (k : List Micro) : Prop :=
  ∀ s : State, s.params = p → s.bl = bl → s.text = m → s.inbox = [] → s.busy = true → s.raced = [] →
    ∃ u, run (play s.answerAt m (restCalls p bl m k).2 (restCalls p bl m k).1 0).1.length (proceed c k s) = .next u
      ∧ Ended c s k (play s.answerAt m (restCalls p bl m k).2 (restCalls p bl m k).1 0) u

section
variable {c : Instr} {p : Params} {bl : Bool} {m : Memory} {k : List Micro}

theorem runsOut_nil : RunsOut c p bl m [] := by
  rintro s rfl rfl rfl hi hb hn
  refine ⟨_, rfl, ?_⟩
  constructor <;> simp +contextual [restCalls, play, proceed, lastPhase, Latch.afterEvents, Lcd.afterEvents, ErrCode.isTransport, hi]

theorem runsOut_illegal : RunsOut c p bl m (.illegal :: k) := by
  rintro s rfl rfl rfl hi hb hn
  refine ⟨_, rfl, ?_⟩
  constructor <;> simp +contextual [restCalls, play, proceed, Micro.inDisplay, Latch.afterEvents, Lcd.afterEvents, ErrCode.isTransport, hi]

theorem runsOut_setPhase {q : Phase} (h : RunsOut c p bl m k) : RunsOut c p bl m (.setPhase q :: k) := by
  rintro s rfl rfl rfl hi hb hn
  obtain ⟨u, hu, he⟩ := h { s with phase := q } rfl rfl rfl hi hb hn
  exact ⟨u, hu, he.busy, he.seq, he.params, he.text, he.inbox, he.bl, he.log, he.lastErr, he.faulted, he.drawn,
    he.answers, he.latch, he.lcd, he.initPhase, fun _ hd => by simp [Micro.inDisplay] at hd⟩

theorem runsOut_setCfg {i : Fin 6} (h : RunsOut c p bl m k) : RunsOut c p bl m (.setCfg i :: k) := by
  rintro s rfl rfl rfl hi hb hn
  obtain ⟨u, hu, he⟩ := h { s with cfgIdx := i } rfl rfl rfl hi hb hn
  exact ⟨u, hu, he.busy, he.seq, he.params, he.text, he.inbox, he.bl, he.log, he.lastErr, he.faulted, he.drawn,
    he.answers, he.latch, he.lcd, he.initPhase, fun _ hd => by simp [Micro.inDisplay] at hd⟩

/-- How the end found from the state `s1` after one event is the end found from the state `s` before it. -/
theorem Ended.after {s s1 u : State} {k' : List Micro} {e : Event} {r : List Event × ErrCode} (he : Ended c s1 k' r u)
    (hp : s1.params = s.params) (ht : s1.text = s.text) (hi : s1.inbox = s.inbox) (hbl : s1.bl = s.bl)
    (hlog : s1.log = s.log ++ [.event e]) (hf : s1.faulted = s.faulted)
    (hd : s1.drawn = s.drawn + if e.isTransport then 1 else 0)
    (ha : s1.answers = s.answers.drop (if e.isTransport then 1 else 0))
    (hla : s1.latch = s.latch.afterEvents [e]) (hlcd : s1.lcd = s.lcd.afterEvents s.params [e])
    (hph : s1.phase = s.phase) (hcfg : s1.cfgIdx = s.cfgIdx)
    (hl : ∀ q, lastPhase q k = lastPhase q k') (hD : k.all Micro.inDisplay = true → k'.all Micro.inDisplay = true) :
    Ended c s k (e :: r.1, r.2) u where
  busy := he.busy
  seq := he.seq
  params := he.params.trans hp
  text := he.text.trans ht
  inbox := he.inbox.trans hi
  bl := he.bl.trans hbl
  log := by simp [he.log, hlog]
  lastErr := he.lastErr
  faulted := by rw [he.faulted, hf]
  drawn := by rw [he.drawn, hd, List.countP_cons]; omega
  answers := by rw [he.answers, ha, List.countP_cons, List.drop_drop]; congr 1; omega
  latch := by rw [he.latch, hla]; cases e <;> rfl
  lcd := by rw [he.lcd, hlcd, hp]; cases e <;> rfl
  initPhase := fun h => by rw [hl, ← hph]; exact he.initPhase h
  display := fun h hd => by rw [← hph, ← hcfg]; exact he.display h (hD hd)

/-- A transport call that answers `false` ends the command. -/
theorem Ended.failed {s s1 : State} {e : Event} {kind : ErrCode} (hk : kind.isTransport = true) (he : e.isTransport = true)
    (hp : s1.params = s.params) (ht : s1.text = s.text) (hi : s1.inbox = s.inbox) (hbl : s1.bl = s.bl)
    (hlog : s1.log = s.log ++ [.event e])
    (hd : s1.drawn = s.drawn + 1) (ha : s1.answers = s.answers.tail)
    (hla : s1.latch = s.latch.afterEvents [e]) (hlcd : s1.lcd = s.lcd.afterEvents s.params [e])
    (hph : s1.phase = s.phase) (hcfg : s1.cfgIdx = s.cfgIdx) : Ended c s k ([e], kind) (raise c kind s1) where
  busy := rfl
  seq := rfl
  params := hp
  text := ht
  inbox := hi
  bl := hbl
  log := by simp [hlog]
  lastErr := rfl
  faulted := by simp [hk]
  drawn := by simp [hd, he]
  answers := by simp [ha, he]
  latch := hla
  lcd := by
    rw [if_neg (by cases kind <;> simp_all [ErrCode.isTransport]),
      if_neg (by cases kind <;> simp_all [ErrCode.isTransport])]
    exact hlcd
  initPhase := fun h => by cases kind <;> simp_all [ErrCode.isTransport]
  display := fun h _ => by simp [h, hph, hcfg]

/-- A transport write in progress: answered `true`, the rest runs out; answered `false`, the command has ended. -/
theorem runsOut_write (hv : p.valid = true) {v : Byte} {k' : List Micro} (h : RunsOut c p bl m k')
    (hp : ∀ s : State, s.params = p → s.bl = bl → proceed c k s = await c (.write v) k' s)
    (hr : restCalls p bl m k = (.write v :: (restCalls p bl m k').1, (restCalls p bl m k').2))
    (hl : ∀ q, lastPhase q k = lastPhase q k')
    (hD : k.all Micro.inDisplay = true → k'.all Micro.inDisplay = true) : RunsOut c p bl m k := by
  rintro s rfl rfl rfl hi hb hn
  rw [hp s rfl rfl, hr]
  have hstep : step (await c (.write v) k' s) = .next (advance ⟨c, .write v, k'⟩ (await c (.write v) k' s)) :=
    step_advance (by simpa using hv) (by simpa using hi) (by simpa using hb) rfl
  rw [advance_write, show (await c (.write v) k' s).answerAt 0 = s.answerAt 0 from rfl] at hstep
  cases hans : s.answerAt 0 with
  | true =>
    obtain ⟨u, hu, he⟩ := h (afterBusWrite v true (await c (.write v) k' s)) rfl rfl rfl hi hb hn
    have hshift : (afterBusWrite v true (await c (.write v) k' s)).answerAt = fun j => s.answerAt (j + 1) := by
      funext j; exact answerAt_draw s j _ rfl rfl
    rw [hshift, play_shift] at hu he
    rw [hans, if_pos rfl] at hstep
    simp only [play, hans, if_true]
    exact ⟨u, (run_succ_of_step hstep _).trans hu,
      he.after rfl rfl rfl rfl rfl rfl rfl (by simp [Event.isTransport]) rfl rfl rfl rfl hl hD⟩
  | false =>
    rw [hans, if_neg (by simp)] at hstep
    simp only [play, hans]
    exact ⟨_, run_succ_of_step hstep 0, Ended.failed rfl rfl rfl rfl rfl rfl rfl rfl rfl rfl rfl rfl rfl⟩

theorem runsOut_busInit (hv : p.valid = true) (h : RunsOut c p bl m k) : RunsOut c p bl m (.busInit :: k) := by
  rintro s rfl rfl rfl hi hb hn
  have hstep : step (proceed c (.busInit :: k) s) = .next (advance ⟨c, .busInit, k⟩ (await c .busInit k s)) :=
    step_advance (by simpa using hv) (by simpa [proceed] using hi) (by simpa [proceed] using hb) rfl
  rw [advance_busInit, show (await c .busInit k s).answerAt 0 = s.answerAt 0 from rfl] at hstep
  cases hans : s.answerAt 0 with
  | true =>
    obtain ⟨u, hu, he⟩ := h (afterBusInit true (await c .busInit k s)) rfl rfl rfl hi hb hn
    have hshift : (afterBusInit true (await c .busInit k s)).answerAt = fun j => s.answerAt (j + 1) := by
      funext j; exact answerAt_draw s j _ rfl rfl
    rw [hshift, play_shift] at hu he
    rw [hans, if_pos rfl] at hstep
    simp only [restCalls, play, hans, if_true]
    exact ⟨u, (run_succ_of_step hstep _).trans hu,
      he.after rfl rfl rfl rfl rfl rfl rfl (by simp [Event.isTransport]) rfl rfl rfl rfl (fun _ => rfl)
        (fun hd => by simp [Micro.inDisplay] at hd)⟩
  | false =>
    rw [hans, if_neg (by simp)] at hstep
    simp only [restCalls, play, hans]
    exact ⟨_, run_succ_of_step hstep 0, Ended.failed rfl rfl rfl rfl rfl rfl rfl rfl rfl rfl rfl rfl rfl⟩

theorem runsOut_delay (hv : p.valid = true) {ms : Nat} (h : RunsOut c p bl m k) : RunsOut c p bl m (.delay ms :: k) := by
  rintro s rfl rfl rfl hi hb hn
  by_cases hms : ms = 0
  · subst hms
    obtain ⟨u, hu, he⟩ := h s rfl rfl rfl hi hb hn
    simp only [restCalls, delayCalls, if_true, List.nil_append, proceed]
    exact ⟨u, hu, he.busy, he.seq, he.params, he.text, he.inbox, he.bl, he.log, he.lastErr, he.faulted, he.drawn,
      he.answers, he.latch, he.lcd, he.initPhase, fun hc hd => he.display hc (by simpa [Micro.inDisplay] using hd)⟩
  · obtain ⟨u, hu, he⟩ := h ((await c (.delay ms) k s).emit (.delay ms)) rfl rfl rfl hi hb hn
    have hstep : step (await c (.delay ms) k s) = .next (advance ⟨c, .delay ms, k⟩ (await c (.delay ms) k s)) :=
      step_advance (by simpa using hv) (by simpa using hi) (by simpa using hb) rfl
    simp only [restCalls, delayCalls, if_neg hms, List.singleton_append, play, proceed]
    exact ⟨u, (run_succ_of_step hstep _).trans hu,
      he.after rfl rfl rfl rfl rfl rfl rfl rfl rfl rfl rfl rfl (fun _ => rfl)
        (fun hd => by simpa [Micro.inDisplay] using hd)⟩

theorem runsOut_release (hv : p.valid = true) {v : Byte} (h : RunsOut c p bl m k) :
    RunsOut c p bl m (.release v :: k) :=
  runsOut_write hv h (fun _ _ _ => rfl) rfl (fun _ => rfl) (fun hd => by simpa [Micro.inDisplay] using hd)

theorem runsOut_enable (hv : p.valid = true) {n : Nibble} {rs : RegSelect} (h : RunsOut c p bl m k) :
    RunsOut c p bl m (.enable n rs :: k) :=
  runsOut_write hv (runsOut_release hv h) (fun s hp hb => by simp [proceed, hp, hb]) rfl (fun _ => rfl)
    (fun hd => by simpa [Micro.inDisplay] using hd)

theorem runsOut_message (hv : p.valid = true) {b : Byte} {rs : RegSelect} (h : RunsOut c p bl m k) :
    RunsOut c p bl m (sendMessage p b rs ++ k) :=
  runsOut_enable hv (runsOut_enable hv (runsOut_delay hv h))

/-- The end of the text loop when the top is reached, or the next character. -/
theorem runsOut_nextChar {a : TextAddr} (h : a ≠ lastText → RunsOut c p bl m (.readChar (a + 1) :: k)) :
    RunsOut c p bl m (.nextChar a :: k) := by
  rintro s rfl rfl rfl hi hb hn
  by_cases ha : a = lastText
  · simp only [restCalls, if_pos ha, play, proceed]
    refine ⟨_, rfl, ?_⟩
    constructor <;> simp +contextual [Latch.afterEvents, ErrCode.isTransport, hi]
  · obtain ⟨u, hu, he⟩ := h ha s rfl rfl rfl hi hb hn
    simp only [restCalls, if_neg ha, proceed] at hu ⊢
    exact ⟨u, hu, he.busy, he.seq, he.params, he.text, he.inbox, he.bl, he.log, he.lastErr, he.faulted, he.drawn,
      he.answers, he.latch, he.lcd, he.initPhase, fun hc hd => he.display hc (by simpa [Micro.inDisplay] using hd)⟩

theorem textAddr_succ {a : TextAddr} (ha : a ≠ lastText) : (a + 1).toNat = a.toNat + 1 := by
  have h : a.toNat ≠ 4095 := fun h => ha (BitVec.eq_of_toNat_eq h)
  have h' : a.toNat < 4096 := a.isLt
  rw [BitVec.toNat_add]
  show (a.toNat + 1) % 4096 = _
  omega

theorem runsOut_readChar (hv : p.valid = true) : ∀ (n : Nat) (a : TextAddr), n = Memory.size - a.toNat →
    RunsOut c p bl m (.readChar a :: k) := by
  intro n
  induction n with
  | zero => intro a ha; have h : a.toNat < 4096 := a.isLt; simp [Memory.size] at ha; omega
  | succ n ih =>
    rintro a ha s rfl rfl rfl hi hb hn
    have hstep : step (await c (.read a) k s) = .next (advance ⟨c, .read a, k⟩ (await c (.read a) k s)) :=
      step_advance (by simpa using hv) (by simpa using hi) (by simpa using hb) rfl
    have hread : (await c (.read a) k s).readByte a = s.text.read a := readByte_of_no_race (replaced_nil hn a)
    rw [advance_read, hread, await_params] at hstep
    simp only [restCalls, ← ha, textCalls, proceed]
    by_cases hc : s.text.read a = terminator
    · rw [if_pos hc] at hstep
      simp only [if_pos hc, play]
      refine ⟨_, run_succ_of_step hstep 0, ?_⟩
      constructor <;> simp +contextual [hread, Latch.afterEvents, Lcd.afterEvents, ErrCode.isTransport, lastPhase, Event.isTransport]
    · rw [if_neg hc] at hstep
      have hnext : RunsOut c s.params s.bl s.text (.nextChar a :: k) :=
        runsOut_nextChar (fun hne => ih (a + 1) (by rw [textAddr_succ hne]; omega))
      obtain ⟨u, hu, he⟩ := runsOut_message hv (b := s.text.read a) (rs := .data) hnext
        (afterMemRead a (await c (.read a) k s)) rfl rfl rfl hi hb hn
      have hcalls : restCalls s.params s.bl s.text (.nextChar a :: k) = textCalls s.params s.bl s.text n (a + 1) := by
        by_cases hl : a = lastText
        · have hn : n = 0 := by
            subst hl
            have : n + 1 = 4096 - 4095 := ha
            omega
          simp only [restCalls, if_pos hl, hn, textCalls]
        · have hn : Memory.size - (a + 1).toNat = n := by rw [textAddr_succ hl]; omega
          simp only [restCalls, if_neg hl, hn]
      rw [restCalls_append_message, hcalls] at hu he
      simp only [if_neg hc, play]
      refine ⟨u, (run_succ_of_step hstep _).trans hu, he.after rfl rfl rfl rfl (by simp [hread]) rfl rfl rfl rfl rfl rfl rfl ?_ ?_⟩
      · intro q; rw [lastPhase_append_message]; rfl
      · intro hd; simpa [Micro.inDisplay, sendMessage, sendNibble] using hd
end

theorem runsOut_boot {c p bl m k q n ms} (hv : p.valid = true) (h : RunsOut c p bl m k) :
    RunsOut c p bl m (bootStep q n ms ++ k) :=
  runsOut_setPhase (runsOut_enable hv (runsOut_delay hv h))

theorem runsOut_config {c p bl m k i} (hv : p.valid = true) (h : RunsOut c p bl m k) :
    RunsOut c p bl m (configStep p i ++ k) :=
  runsOut_setCfg (runsOut_message hv h)

theorem runsOut_init {p bl m} (hv : p.valid = true) : RunsOut .init p bl m (initProgram p) := by
  simp only [initProgram, List.append_assoc, List.cons_append, List.nil_append]
  refine runsOut_setPhase (runsOut_setCfg (runsOut_busInit hv (runsOut_delay hv ?_)))
  refine runsOut_boot hv (runsOut_boot hv (runsOut_boot hv (runsOut_setPhase ?_)))
  refine runsOut_config hv (runsOut_config hv (runsOut_config hv (runsOut_config hv (runsOut_config hv (runsOut_config hv ?_)))))
  exact runsOut_setPhase runsOut_nil

theorem restCalls_init (p bl m) : restCalls p bl m (initProgram p) = (initCalls p bl, .ok) := by
  simp [initProgram, bootStep, configStep, sendNibble, restCalls, sendMessage, initCalls, messageCalls, Params.cfgByte]

theorem lastPhase_init (p q) : lastPhase q (initProgram p) = .ready := by
  simp [initProgram, bootStep, configStep, sendNibble, sendMessage, lastPhase]

/-- A course that ends with a transport error has an event, and its last one, which failed, has left the LCD unknown. -/
theorem play_lost (ans : Nat → Bool) (m : Memory) (e : ErrCode) (he : e.isTransport = false) (p : Params) :
    ∀ (cs : List Call) (n : Nat) (l : Lcd), (play ans m e cs n).2.isTransport = true →
      (play ans m e cs n).1 ≠ [] ∧ l.afterEvents p (play ans m e cs n).1 = .unknown
  | [], _, _, h => by simp [play, he] at h
  | .busInit :: cs, n, l, h => by
    cases hn : ans n <;> simp only [play, hn] at h ⊢
    · exact ⟨by simp, rfl⟩
    · exact ⟨by simp, (play_lost ans m e he p cs (n + 1) _ h).2⟩
  | .write v :: cs, n, l, h => by
    cases hn : ans n <;> simp only [play, hn] at h ⊢
    · exact ⟨by simp, rfl⟩
    · exact ⟨by simp, (play_lost ans m e he p cs (n + 1) _ h).2⟩
  | .delay _ :: cs, n, l, h => ⟨by simp [play], (play_lost ans m e he p cs n l h).2⟩
  | .read _ :: cs, n, l, h => ⟨by simp [play], (play_lost ans m e he p cs n l h).2⟩

/-- A course ends with a transport error, or makes every call and ends with the code of its plan. -/
theorem play_cases (ans : Nat → Bool) (m : Memory) (e : ErrCode) : ∀ (cs : List Call) (n : Nat),
    (play ans m e cs n).2.isTransport = true
      ∨ ((play ans m e cs n).2 = e ∧ (play ans m e cs n).1.length = cs.length)
  | [], _ => .inr ⟨rfl, rfl⟩
  | .busInit :: cs, n => by
    cases hn : ans n <;> simp only [play, hn]
    · exact .inl rfl
    · simpa using play_cases ans m e cs (n + 1)
  | .write v :: cs, n => by
    cases hn : ans n <;> simp only [play, hn]
    · exact .inl rfl
    · simpa using play_cases ans m e cs (n + 1)
  | .delay _ :: cs, n => by simpa [play] using play_cases ans m e cs n
  | .read _ :: cs, n => by simpa [play] using play_cases ans m e cs n

theorem textCalls_code (p : Params) (bl : Bool) (m : Memory) : ∀ (n : Nat) (a : TextAddr),
    (textCalls p bl m n a).2 = .ok ∨ (textCalls p bl m n a).2 = .outOfRange
  | 0, _ => .inr rfl
  | n + 1, a => by
    simp only [textCalls]
    split
    · exact .inl rfl
    · exact textCalls_code p bl m n (a + 1)

/-- The codes a plan ends with. -/
theorem plan_code (i : Instr) (s : State) : (plan i s).2 = .ok ∨ (plan i s).2 = .outOfRange
    ∨ ((plan i s).1 = [] ∧ (plan i s).2.isTransport = false) := by
  by_cases hg : gateCloses s = true
  · cases i <;> simp [plan, gated, hg, ErrCode.isTransport]
  · cases i with
    | prints addr =>
      rcases textCalls_code s.params s.bl s.text (Memory.size - addr.toNat) addr with h | h
      · exact .inl (by simpa [plan, gated, hg] using h)
      · exact .inr (.inl (by simpa [plan, gated, hg] using h))
    | setcur r c => by_cases h : columnOut s.params c = true <;> simp [plan, gated, hg, h]
    | _ => simp [plan, gated, hg, ErrCode.isTransport]

/-- The LCD of a command that ended, in the form of `Lcd.afterCommand`, where a plan that ends with OutOfRange makes a call. -/
theorem lcd_afterCommand {i : Instr} {s u : State}
    (h : u.lcd = if i.isInit && (course i s).2 == .ok then .expectsHigh [] else if (course i s).2 = .outOfRange then .unknown
      else s.lcd.afterEvents s.params (course i s).1)
    (hne : (plan i s).2 = .outOfRange → (plan i s).1 ≠ []) : u.lcd = s.lcd.afterCommand s.params i (course i s) := by
  have hplan : (plan i s).2.isTransport = false := by
    rcases plan_code i s with h | h | h
    · rw [h]; rfl
    · rw [h]; rfl
    · exact h.2
  have hlost : (course i s).2.isTransport = true → (course i s).1 ≠ [] ∧ s.lcd.afterEvents s.params (course i s).1 = .unknown :=
    play_lost s.answerAt s.text (plan i s).2 hplan s.params (plan i s).1 0 s.lcd
  have hcase : (course i s).2.isTransport = true
      ∨ (course i s).2 = (plan i s).2 ∧ (course i s).1.length = (plan i s).1.length :=
    play_cases s.answerAt s.text (plan i s).2 (plan i s).1 0
  rw [h]
  unfold Lcd.afterCommand
  rcases hcase with h1 | ⟨h1, h2⟩
  · obtain ⟨h3, h4⟩ := hlost h1
    have h5 : (course i s).2 ≠ .ok := by intro h; simp [h, ErrCode.isTransport] at h1
    simp [h5, h3, h4]
  · rw [h1]
    rcases plan_code i s with h | h | ⟨h, h'⟩
    · simp [h]
    · have h3 : (course i s).1 ≠ [] := fun h' => hne h (List.length_eq_zero_iff.mp (by rw [← h2, h']; rfl))
      simp [h, h3]
    · have h3 : (course i s).1 = [] := List.length_eq_zero_iff.mp (by rw [h2, h]; rfl)
      have h4 : (plan i s).2 ≠ .outOfRange := fun ho => hne ho h
      by_cases ho : (plan i s).2 = .ok <;> simp [ho, h3, h4, Lcd.afterEvents]

/-- A started command runs out. -/
theorem start_runs {c : Instr} {k : List Micro} {s : State} (hu : Undisturbed s) (h : RunsOut c s.params s.bl s.text k) :
    let r := play s.answerAt s.text (restCalls s.params s.bl s.text k).2 (restCalls s.params s.bl s.text k).1 0
    ∃ t u, start c k s = .next t ∧ run r.1.length t = .next u ∧
       Ended c { s.record (.accepted c) with busy := true, raced := [] } k r u := by
  obtain ⟨u, h1, h2⟩ := h { s.record (.accepted c) with busy := true, raced := [] } rfl rfl rfl hu.alone rfl rfl
  exact ⟨_, u, by simp [start, hu.valid, hu.idle], h1, h2⟩

/-- A started command behind the gate is rejected or runs out. -/
theorem start_gated {c : Instr} {k : List Micro} {s : State} (hu : Undisturbed s) (h : RunsOut c s.params s.bl s.text k)
    (hc : c.isInit = false)
   : let r := let g := gated s (restCalls s.params s.bl s.text k); play s.answerAt s.text g.2 g.1 0
    ∃ t u, start c (.gateReady :: k) s = .next t ∧ run r.1.length t = .next u ∧
       Ended c { s.record (.accepted c) with busy := true, raced := [] } k r u := by
  by_cases hg : gateCloses s = true
  · simp only [gated, if_pos hg, play]
    refine ⟨_, _, by simp only [start, hu.valid, hu.idle]; rfl, rfl, ?_⟩
    have hg' : (s.params.requireReady && s.phase != Phase.ready) = true := hg
    simp only [proceed, record_params, record_phase, hg', if_true]
    constructor <;> simp [Latch.afterEvents, Lcd.afterEvents, hc, ErrCode.isTransport]
  · obtain ⟨u, h1, h2⟩ := h { s.record (.accepted c) with busy := true, raced := [] } rfl rfl rfl hu.alone rfl rfl
    simp only [gated, if_neg hg]
    have hg' : ¬ (s.params.requireReady && s.phase != Phase.ready) = true := hg
    refine ⟨_, u, by simp only [start, hu.valid, hu.idle]; rfl, ?_, h2⟩
    simp only [proceed, record_params, record_phase, hg']
    exact h1

theorem allD_msg (p b rs) : (sendMessage p b rs).all Micro.inDisplay = true := by
  simp [sendMessage, sendNibble, Micro.inDisplay]

theorem runsOut_msg {c p bl m b rs} (hv : p.valid = true) : RunsOut c p bl m (sendMessage p b rs) := by
  simpa using runsOut_message hv (b := b) (rs := rs) (runsOut_nil (c := c) (p := p) (bl := bl) (m := m))

theorem restCalls_msg (p bl m b rs) : restCalls p bl m (sendMessage p b rs) = (messageCalls p bl b rs, .ok) := by
  simpa [restCalls] using restCalls_append_message p bl m b rs []

end Sys2Proof.Machine
end

