-- ==== Sys2Proof/Tests/Slice0.lean ====
section
/-! SUPPORT. The model's own tests and the witnesses of the statements' hypotheses. Expected values come from
spec/30_encoding.md R92 and spec/95_test_vectors.md, not from the model. -/

namespace Sys2Proof.Tests

open Sys2Proof Sys2Proof.Machine

/-- A reading of the next state; none where the step stops. -/
def see {α : Type} (f : State → α) (o : Host.Outcome State Fault Refusal) : Option α :=
  match o with
  | .next t => some (f t)
  | .fault _ => none
  | .refused _ => none

/-- Idle right after reset, with `n` coming answers `true`. -/
def idle (n : Nat) : State := { State.reset with answers := List.replicate n true }

/-- The same behind the gate: `REQUIRE_READY` = 1, `CHECK_BOUNDS` = 1, and a phase. -/
def gatedIn (p : Phase) (n : Nat) : State :=
  { idle n with params := { Params.default with requireReady := true, checkBounds := true }, phase := p }

/-- Busy with a command, a call in progress and the rest of the pseudocode. -/
def during (i : Instr) (c : Call) (k : List Micro) (ans : List Bool) : State :=
  { State.reset with busy := true, seq := some ⟨i, c, k⟩, answers := ans, log := [.accepted i] }

/-- With a host action at hand. -/
def doing (s : State) (a : HostAction) : State := { s with inbox := [a] }

/-- The call in progress. -/
def current (s : State) : Option Call := s.seq.map (fun r => r.call)

/-- Other legal parameters: other lines, no `T_INIT`. -/
def otherParams : Params :=
  { Params.default with enBit := 0, blPos := 2, rsData := 0x08, rsCmd := 0x02, tInit := 0, numColumns := 256 }

/-! Well-formed terms. -/

theorem test_wf_illegal_word : (Instr.reserved 0x9000).WellFormed := by decide
theorem test_wf_refuses_legal_word : ¬ (Instr.reserved 0x0000).WellFormed := by decide
theorem test_wf_refuses_legal_operand : ¬ (Instr.reserved 0x41FF).WellFormed := by decide

/-! Decoding: words of 30_encoding.md R92, bit by bit, and the table of 95_test_vectors.md V2. -/

theorem test_decode_init : decode 0b0000000000000000 = .init ∧ decode 0x0001 = .reserved 0x0001 ∧ decode 0x0800 = .reserved 0x0800 := by
  decide
theorem test_decode_clear : decode 0b0001000000000000 = .clear ∧ decode 0x10FF = .reserved 0x10FF := by decide
theorem test_decode_printc : decode 0b0010000001000001 = .printc 0x41 ∧ decode 0x20FF = .printc 0xFF ∧ decode 0x2141 = .reserved 0x2141 := by
  decide
theorem test_decode_prints : decode 0b0011000000000000 = .prints 0x000 ∧ decode 0x3FFF = .prints 0xFFF := by decide
theorem test_decode_setcur : decode 0b0100000111111111 = .setcur .second 0xFF ∧ decode 0x4000 = .setcur .first 0
    ∧ decode 0x4200 = .reserved 0x4200 ∧ decode 0x4800 = .reserved 0x4800 := by
  decide
theorem test_decode_curon : decode 0b0101000000000000 = .curon ∧ decode 0x5001 = .reserved 0x5001 := by decide
theorem test_decode_curoff : decode 0b0110000000000000 = .curoff ∧ decode 0x6100 = .reserved 0x6100 := by decide
theorem test_decode_setbl : decode 0b0111000000000001 = .setbl true ∧ decode 0x7000 = .setbl false ∧ decode 0x7002 = .reserved 0x7002 := by
  decide
theorem test_decode_reserved : decode 0b1000000000000000 = .reserved 0x8000 ∧ decode 0x9000 = .reserved 0x9000
    ∧ decode 0xF000 = .reserved 0xF000 ∧ decode 0xFFFF = .reserved 0xFFFF := by
  decide
theorem test_decode_table_word : decodeTableWord 16 0x4105 = some (.setcur .second 5) ∧ decodeTableWord 8 0x41 = none
    ∧ decodeTableWord 16 0x10000 = none := by
  decide

/-! One step of each command (95_test_vectors.md E2 to E6, V1, V5, V6). -/

theorem test_init_starts : see (fun t => (current t, t.phase, t.busy)) (step (doing (idle 1) (.command 0x0000)))
    = some (some .busInit, .uninit, true) := by
  decide
theorem test_init_bus_init_fails : see (fun t => (t.statusWord, t.eventTrace, t.log.getLast?))
    (step (during .init .busInit [.delay 50] [false])) = some (0x009E, [.init false], some (.responded .init 0xA)) := by
  decide
theorem test_clear_first_write : see current (step (doing (idle 1) (.command 0x1000))) = some (some (.write 0x0C)) := by decide
theorem test_clear_gate : see (fun t => (t.statusWord, t.eventTrace, t.log.getLast?))
    (step (doing (gatedIn .uninit 0) (.command 0x1000))) = some (0x00D0, [], some (.responded .clear 0xB)) := by
  decide
theorem test_printc_first_write : see current (step (doing (idle 1) (.command 0x2061))) = some (some (.write 0x6D)) := by decide
theorem test_printc_write_fails : see (fun t => (t.statusWord, t.eventTrace, t.log.getLast?))
    (step (during (.printc 0x61) (.write 0x6D) [.release 0x69] [false]))
      = some (0x0058, [.write 0x6D false], some (.responded (.printc 0x61) 0x9)) := by
  decide
theorem test_prints_reads_character : see (fun t => (current t, t.eventTrace))
    (step { during (.prints 0xFFF) (.read 0xFFF) [] [] with text := [(0xFFF, 0x4B)] }) = some (some (.write 0x4D), [.read 0xFFF 0x4B]) := by
  decide
theorem test_prints_ends_at_the_top : see (fun t => (t.statusWord, t.log.getLast?))
    (step (during (.prints 0xFFE) (.write 0xB9) [.delay 0, .nextChar 0xFFF] [true]))
      = some (0x0110, some (.responded (.prints 0xFFE) 0xC)) := by
  decide
theorem test_setcur_first_write : see current (step (doing (idle 1) (.command 0x4105))) = some (some (.write 0xCC)) := by decide
theorem test_setcur_column : see (fun t => (t.statusWord, t.eventTrace, t.log.getLast?))
    (step (doing { gatedIn .ready 0 with cfgIdx := 5 } (.command 0x4010)))
      = some (0x0B15, [], some (.responded (.setcur .first 16) 0xC)) := by
  decide
theorem test_curon_first_write : see current (step (doing (idle 1) (.command 0x5000))) = some (some (.write 0x0C)) := by decide
theorem test_curon_byte : cursorOnByte Params.default = 0x0F := by decide
theorem test_curoff_first_write : see current (step (doing { idle 1 with bl := false } (.command 0x6000)))
    = some (some (.write 0x04)) := by
  decide
theorem test_curoff_byte : cursorOffByte Params.default = 0x0C := by decide
theorem test_setbl : see (fun t => (t.statusWord, t.eventTrace, t.log.getLast?)) (step (doing (idle 0) (.command 0x7000)))
    = some (0x0000, [], some (.responded (.setbl false) 0x0)) := by
  decide
theorem test_setbl_behind_the_gate : see (fun t => t.statusWord) (step (doing (gatedIn .uninit 0) (.command 0x7001)))
    = some 0x0010 := by
  decide
theorem test_reserved : see (fun t => (t.statusWord, t.eventTrace, t.log.getLast?)) (step (doing (idle 0) (.command 0x9000)))
    = some (0x0150, [], some (.responded (.reserved 0x9000) 0xD)) := by
  decide
theorem test_reserved_before_the_gate : see (fun t => t.statusWord) (step (doing (gatedIn .uninit 0) (.command 0x4300)))
    = some 0x0150 := by
  decide

/-! Bytes, status and the ports. -/

theorem test_status_after_reset : State.reset.statusWord = 0x0010 := by decide
theorem test_message_bytes : messageEvents Params.default true 0xA5 .data
    = [.write 0xAD true, .write 0xA9 true, .write 0x5D true, .write 0x59 true] := by
  decide
theorem test_message_no_backlight : messageEvents Params.default false 0x01 .command
    = [.write 0x04 true, .write 0x00 true, .write 0x14 true, .write 0x10 true, .delay 2] := by
  decide
/-- R134: a Data byte equal to `CLR_LCD` gets `T_SHORT` (95_test_vectors.md V1.5), no delay at the defaults. -/
theorem test_message_data_settle : messageEvents Params.default true 0x01 .data
    = [.write 0x0D true, .write 0x09 true, .write 0x1D true, .write 0x19 true] := by
  decide
theorem test_settle_long : settle { Params.default with tShort := 1 } 0x02 .command = 2
    ∧ settle { Params.default with tShort := 1 } 0x02 .data = 1 ∧ settle { Params.default with tShort := 1 } 0x03 .command = 1 := by
  decide
theorem test_setcur_wraps : cursorByte Params.default .second 0xC0 = 0x80 ∧ cursorByte Params.default .second 0x40 = 0x80
    ∧ cursorByte Params.default .first 0xFF = 0xFF ∧ cursorByte Params.default .second 3 = 0xC3 := by
  decide
theorem test_fetch_word : see current (step (State.reset.withFetchWord 16 0x4105)) = some (some (.write 0xCC)) := by decide
theorem test_reset_cuts_off : see (fun t => (t.statusWord, t.latch, t.log.getLast?))
    (step (doing { during .clear (.write 0x0C) [] [] with latch := .oneOf [0x08], faulted := true } .reset))
      = some (0x0010, .any, some (.reset (some (.write 0x0C)))) := by
  decide
theorem test_unlisted_text : Memory.read [] 0xFFF = 0x00 ∧ Memory.write [(5, 0x41)] 5 0x00 = [] := by decide
theorem test_assemble : assemble ["        .org 0x100".toList, ".asciz \"Hi\" ; text".toList, "PRINTS 0x100".toList, "SETCUR 1, 3".toList,
    "PRINTC 'x'".toList] AsmOut.empty = .ok ⟨[0x3100, 0x4103, 0x2078], [(0x100, 0x48), (0x101, 0x69)], 0x103⟩ := by
  rfl
theorem test_assemble_quotes : parseLine "PRINTC ''' ; a quote".toList = .ok (some (.printc 0x27))
    ∧ parseLine "PRINTC ';'".toList = .ok (some (.printc 0x3B)) ∧ parseLine ".asciz \"a;b\"".toList
      = .ok (some (.asciz [0x61, 0x3B, 0x62])) := ⟨rfl, rfl, rfl⟩
theorem test_assemble_out_of_range : (AsmItem.printc 256).word = .error .outOfRange := by rfl
theorem test_instances : (match stepInstance 0 [doing (idle 0) (.command 0x7000), idle 0] with
    | .next bs => bs.map (fun s => s.bl)
    | .fault _ => []
    | .refused _ => []) = [false, true] := by
  decide

/-- A host write during a PRINTS: the replaced byte is kept (92_eei_decisions.md D36), and not outside a command. -/
theorem test_racing_write : see (fun t => (t.text.read 0xFFF, t.raced))
    (step (doing { during (.prints 0xFFF) (.read 0xFFF) [] [] with text := [(0xFFF, 0x4B)] } (.writeText 0xFFF 0x4C)))
      = some (0x4C, [(0xFFF, 0x4B)])
    ∧ see (fun t => t.raced) (step (doing (idle 0) (.writeText 0xFFF 0x4C))) = some [] := by
  decide

/-- The read that races with it returns the old byte or the new one. -/
theorem test_racing_read : see (fun t => (t.eventTrace, t.picks))
    (step { during (.prints 0xFFF) (.read 0xFFF) [] [] with text := [(0xFFF, 0x4C)], raced := [(0xFFF, 0x4B)], picks := [0, 7] })
      = some ([.read 0xFFF 0x4B], [7])
    ∧ see (fun t => (t.eventTrace, t.picks))
    (step { during (.prints 0xFFF) (.read 0xFFF) [] [] with text := [(0xFFF, 0x4C)], raced := [(0xFFF, 0x4B)], picks := [1] })
      = some ([.read 0xFFF 0x4C], []) := by
  decide

/-- The end of PRINTS at the top leaves the LCD unknown (93_implementation_defined.md U5). -/
theorem test_prints_out_of_range_loses_display : see (fun t => t.lcd)
    (step { during (.prints 0xFFE) (.write 0xB9) [.delay 0, .nextChar 0xFFF] [true] with lcd := .expectsLow [] }) = some .unknown := by
  decide

/-! WITNESSES: concrete states and operands that meet all the hypotheses of each statement together. -/

theorem idle_undisturbed (n : Nat) : Undisturbed (idle n) := ⟨(by decide : Params.default.valid = true), rfl, rfl⟩

theorem witness_well_formed : (Instr.prints 0xFFF).WellFormed ∧ (Instr.setcur .second 0xFF).WellFormed
    ∧ (Instr.reserved 0x4200).WellFormed := by
  decide

theorem witness_IllegalWordIsRejected : isIllegal 0x8000 = true ∧ isIllegal 0xFFFF = true ∧ isIllegal 0x7002 = true
    ∧ (doing (idle 0) (.command 0x8000)).params.valid = true ∧ (doing (idle 0) (.command 0x8000)).busy = false
    ∧ (doing (idle 0) (.command 0x8000)).inbox = .command 0x8000 :: [] := by
  decide

theorem witness_valid_and_idle : State.reset.params.valid = true ∧ State.reset.busy = false := by decide

theorem witness_ResetSetsRegisters : (doing { idle 0 with faulted := true } .reset).params.valid = true
    ∧ (doing { idle 0 with faulted := true } .reset).inbox = .reset :: []
    ∧ (doing { idle 0 with faulted := true } .reset).faulted = true
    ∧ see (fun t => t.faulted) (step (doing { idle 0 with faulted := true } .reset)) = some false := by
  decide

theorem witness_ResetIssuesNothing : (doing (during .clear (.write 0x0C) [] []) .reset).params.valid = true
    ∧ (doing (during .clear (.write 0x0C) [] []) .reset).inbox = .reset :: []
    ∧ (doing (during .clear (.write 0x0C) [] []) .reset).callInProgress = some (.write 0x0C) := by
  decide

theorem witness_ResetIssuesNothing_idle : (doing (idle 0) .reset).params.valid = true
    ∧ (doing (idle 0) .reset).inbox = .reset :: [] ∧ (doing (idle 0) .reset).callInProgress = none := by
  decide

/-- A state of the invariant in the middle of a CLEAR, and the step from it goes on. -/
theorem witness_Inv_busy : Inv (during .clear (.write 0x0C) [.release 0x08] [true])
    ∧ PulseInv (during .clear (.write 0x0C) [.release 0x08] [true])
    ∧ see current (step (during .clear (.write 0x0C) [.release 0x08] [true])) = some (some (.write 0x08)) := by
  refine ⟨⟨by decide, rfl, rfl, rfl, rfl, by simp, by simp [Instr.isInit], ?_⟩, ?_, by decide⟩
  · exact fun _ => ⟨rfl, rfl, by simp⟩
  · exact .inl ⟨0x08, by decide, by decide, [], rfl, rfl⟩

/-- The same in the middle of an INIT. -/
theorem witness_Inv_init : Inv { during .init .busInit [.setCfg 5, .setPhase .ready] [true] with phase := .boot1 }
    ∧ PulseInv { during .init .busInit [.setCfg 5, .setPhase .ready] [true] with phase := .boot1 }
    ∧ see (fun t => t.phase) (step { during .init .busInit [.setCfg 5, .setPhase .ready] [true] with phase := .boot1 })
      = some .ready := by
  refine ⟨⟨by decide, rfl, rfl, rfl, rfl, by simp, ?_, by simp [Instr.isInit]⟩, rfl, by decide⟩
  exact fun _ => ⟨rfl, ⟨rfl, rfl, rfl⟩, by simp⟩

/-- After a complete INIT. -/
def afterInit : State := { State.reset with phase := .ready, cfgIdx := 5, log := [.accepted .init, .responded .init 0x0] }

/-- After an INIT whose `BusInit` failed. -/
def afterFailedInit : State :=
  { State.reset with
    phase := .faulted
    faulted := true
    lastErr := .transportInitFailed
    log := [.accepted .init, .event (.init false), .responded .init 0xA] }

/-- Between commands: the invariant with each of the three phases, `S.faulted` 0 and 1. -/
theorem witness_Inv_idle : Inv State.reset ∧ Inv afterInit ∧ Inv afterFailedInit := by
  refine ⟨⟨by decide, rfl, rfl, rfl, rfl, rfl⟩, ⟨by decide, rfl, rfl, rfl, rfl, rfl, rfl⟩,
    ⟨by decide, rfl, rfl, rfl, rfl, rfl⟩⟩

theorem witness_StatusRead : (doing (during .clear (.write 0x0C) [] []) .readStatus).params.valid = true
    ∧ (doing (during .clear (.write 0x0C) [] []) .readStatus).inbox = .readStatus :: [] := by
  decide

theorem witness_StatusRead_ready : afterInit.cfgIdx = 5 ∧ afterInit.lastErr = .ok ∧ afterInit.busy = false ∧ afterInit.bl = true
    ∧ afterInit.faulted = false ∧ afterInit.phase = .ready ∧ afterInit.statusWord = 0x0A15 := by
  decide

theorem witness_valid_params : Params.default.valid = true ∧ otherParams.valid = true
    ∧ (1 ≠ otherParams.enBit ∧ 1 ≠ otherParams.blPos) ∧ (3 ≠ otherParams.enBit ∧ 3 ≠ otherParams.blPos) := by
  decide

theorem witness_IllegalParameters : { State.reset with params := { Params.default with blPos := 2 } }.params.valid = false
    ∧ { Params.default with rsCmd := 0x01 }.valid = false ∧ { Params.default with numColumns := 0 }.valid = false
    ∧ { Params.default with numColumns := 257 }.valid = false
    ∧ see (fun t => t.busy) (step (doing (idle 0) .readStatus)) = some false := by
  decide

theorem witness_StepRuns : (doing (idle 0) (.command 0x1000)).params.valid = true ∧ (doing (idle 0) (.command 0x1000)).busy = false
    ∧ (doing (idle 0) (.command 0x1000)).inbox = .command 0x1000 :: []
    ∧ (during .clear (.delay 2) [] []).busy = true ∧ (during .clear (.delay 2) [] []).seq = some ⟨.clear, .delay 2, []⟩
    ∧ (during .clear (.delay 2) [] []).inbox = [] ∧ (during .clear (.delay 2) [] []).params.valid = true := by
  decide

theorem witness_BusyPort : (doing (during .clear (.delay 2) [] []) (.command 0x7000)).params.valid = true
    ∧ (doing (during .clear (.delay 2) [] []) (.command 0x7000)).busy = true
    ∧ (doing (during .clear (.delay 2) [] []) (.command 0x7000)).inbox = .command 0x7000 :: []
    ∧ see (fun t => t.busy) (step (doing (during .clear (.delay 2) [] []) (.command 0x7000))) = some false := by
  decide

theorem witness_Gate : (gatedIn .uninit 0).params.valid = true ∧ (gatedIn .uninit 0).busy = false
    ∧ (gatedIn .uninit 0).params.requireReady = true ∧ (gatedIn .uninit 0).phase ≠ .ready ∧ (gatedIn .faulted 0).phase ≠ .ready
    ∧ (Instr.clear).isDisplay = true ∧ (Instr.printc 0).isDisplay = true ∧ (Instr.prints 0).isDisplay = true
    ∧ (Instr.setcur .first 200).isDisplay = true ∧ (Instr.curon).isDisplay = true ∧ (Instr.curoff).isDisplay = true := by
  decide

theorem witness_SetcurRejects : (gatedIn .ready 0).params.valid = true ∧ (gatedIn .ready 0).busy = false
    ∧ gateCloses (gatedIn .ready 0) = false ∧ (gatedIn .ready 0).params.checkBounds = true
    ∧ (gatedIn .ready 0).params.numColumns ≤ (16 : Byte).toNat ∧ (gatedIn .ready 0).params.numColumns ≤ (0xFF : Byte).toNat := by
  decide

/-- For CLEAR, PRINTC, SETCUR, CURON, CUROFF: the gate open for either reason, the column in range for either reason. -/
theorem witness_message_commands : Undisturbed (idle 4) ∧ gateCloses (idle 4) = false ∧ columnOut (idle 4).params 0xFF = false
    ∧ (∀ j, j < 4 → (idle 4).answerAt j = true) := ⟨idle_undisturbed 4, by decide, by decide, by decide⟩
theorem witness_message_commands_gated : Undisturbed (gatedIn .ready 4) ∧ gateCloses (gatedIn .ready 4) = false
    ∧ columnOut (gatedIn .ready 4).params 15 = false ∧ (∀ j, j < 4 → (gatedIn .ready 4).answerAt j = true) :=
  ⟨⟨by decide, rfl, rfl⟩, by decide, by decide, by decide⟩

/-- PRINTS: the empty text at the last address, and two characters with the terminator there. -/
theorem witness_PrintsCompletes_empty : Undisturbed (idle 8) ∧ gateCloses (idle 8) = false ∧ (0xFFF : TextAddr).toNat + 0 < 4096
    ∧ (∀ j, j < 0 → (idle 8).text.read (0xFFF + BitVec.ofNat 12 j) ≠ 0x00)
    ∧ (idle 8).text.read (0xFFF + BitVec.ofNat 12 0) = 0x00 ∧ (∀ j, j < 8 + 4 * 0 → (idle 8).answerAt j = true) :=
  ⟨idle_undisturbed 8, by decide, by decide, by decide, by decide, by decide⟩

/-- Idle with the text "AB" at 0xFFD. -/
def withText : State := { idle 16 with text := [(0xFFD, 0x41), (0xFFE, 0x42)] }

theorem witness_PrintsCompletes : Undisturbed withText ∧ gateCloses withText = false ∧ (0xFFD : TextAddr).toNat + 2 < 4096
    ∧ (∀ j, j < 2 → withText.text.read (0xFFD + BitVec.ofNat 12 j) ≠ 0x00)
    ∧ withText.text.read (0xFFD + BitVec.ofNat 12 2) = 0x00 ∧ (∀ j, j < 8 + 4 * 2 → withText.answerAt j = true) :=
  ⟨⟨by decide, rfl, rfl⟩, by decide, by decide, by decide, by decide, by decide⟩

/-- Idle with a character at 0xFFF and no terminator after it. -/
def overrun : State := { idle 12 with text := [(0xFFF, 0x4B)] }

theorem witness_PrintsWithoutTerminator : Undisturbed overrun ∧ gateCloses overrun = false
    ∧ (∀ a : TextAddr, (0xFFF : TextAddr).toNat ≤ a.toNat → overrun.text.read a ≠ 0x00)
    ∧ (∀ j, j < 8 + 4 * (4096 - (0xFFF : TextAddr).toNat) → overrun.answerAt j = true) := by
  refine ⟨⟨by decide, rfl, rfl⟩, by decide, ?_, by decide⟩
  intro a ha
  have h : a = 0xFFF := BitVec.eq_of_toNat_eq (Nat.le_antisymm (Nat.le_of_lt_succ a.isLt) ha)
  subst h
  decide

theorem witness_InitCompletes : Undisturbed (idle 31) ∧ (∀ j, j < 31 → (idle 31).answerAt j = true) :=
  ⟨idle_undisturbed 31, by decide⟩

/-- Phase, index and call after `j` events of an INIT from a complete one. -/
def initAfter (j n : Nat) : Option (Option (Phase × Fin 6 × Option Call)) :=
  see (fun t => see (fun u => (u.phase, u.cfgIdx, u.callInProgress)) (run j t))
    (exec .init { idle n with phase := .ready, cfgIdx := 5 })

/-- InitPhases: the first call and each place where the phase changes, with as many answers `true` as the statement asks for. -/
theorem witness_InitPhases_boot1 : initAfter 0 0 = some (some (.uninit, 0, some .busInit))
    ∧ initAfter 1 1 = some (some (.uninit, 0, some (.delay 50))) ∧ initAfter 2 1 = some (some (.boot1, 0, some (.write 0x3C)))
    ∧ initAfter 4 3 = some (some (.boot1, 0, some (.delay 5))) := ⟨rfl, rfl, rfl, rfl⟩
theorem witness_InitPhases_boot3 : initAfter 5 3 = some (some (.boot2, 0, some (.write 0x3C)))
    ∧ initAfter 8 5 = some (some (.boot3, 0, some (.write 0x2C))) ∧ initAfter 10 7 = some (some (.boot3, 0, some (.delay 1))) :=
  ⟨rfl, rfl, rfl⟩
theorem witness_InitPhases_config : initAfter 11 7 = some (some (.config, 0, some (.write 0x2C)))
    ∧ initAfter 15 11 = some (some (.config, 1, some (.write 0x0C)))
    ∧ initAfter 36 31 = some (some (.config, 5, some (.delay 2))) := ⟨rfl, rfl, rfl⟩
theorem witness_InitPhases : Undisturbed (idle 7) ∧ (initStages (idle 7).params (idle 7).bl)[11]? = some (.write 0x2C, .config, 0)
    ∧ (∀ m, m < ((initCalls (idle 7).params (idle 7).bl).take 11).countP Call.isTransport → (idle 7).answerAt m = true) :=
  ⟨idle_undisturbed 7, by decide, by decide⟩
theorem witness_InitPhases_first : Undisturbed (idle 0) ∧ (initStages (idle 0).params (idle 0).bl)[0]? = some (.busInit, .uninit, 0)
    ∧ (∀ m, m < ((initCalls (idle 0).params (idle 0).bl).take 0).countP Call.isTransport → (idle 0).answerAt m = true) :=
  ⟨idle_undisturbed 0, by decide, by decide⟩
theorem witness_InitPhases_last : (initStages (idle 31).params (idle 31).bl)[36]? = some (.delay 2, .config, 5)
    ∧ (initStages (idle 31).params (idle 31).bl)[37]? = none
    ∧ (∀ m, m < ((initCalls (idle 31).params (idle 31).bl).take 36).countP Call.isTransport → (idle 31).answerAt m = true) := by
  decide

theorem witness_FailedInit_busInit : Undisturbed { idle 0 with answers := [false] }
    ∧ State.answerAt { idle 0 with answers := [false] } 0 = false := ⟨⟨by decide, rfl, rfl⟩, by decide⟩

/-- Idle, with write number `j + 1` of an INIT answered `false`. -/
def initFailsAt (j : Nat) : State := { idle 0 with answers := List.replicate (j + 1) true ++ [false] }

theorem witness_FailedInit_first : Undisturbed (initFailsAt 0) ∧ 0 < 30 ∧ (∀ m, m ≤ 0 → (initFailsAt 0).answerAt m = true)
    ∧ (initFailsAt 0).answerAt (0 + 1) = false := ⟨⟨by decide, rfl, rfl⟩, by decide, by decide, by decide⟩
theorem witness_FailedInit_last : Undisturbed (initFailsAt 29) ∧ 29 < 30 ∧ (∀ m, m ≤ 29 → (initFailsAt 29).answerAt m = true)
    ∧ (initFailsAt 29).answerAt (29 + 1) = false := ⟨⟨by decide, rfl, rfl⟩, by decide, by decide, by decide⟩

/-- In the middle of the first pulse of a CLEAR, the write about to be answered `ok`. -/
def pulse (ok : Bool) : State := { during .clear (.write 0x0C) [.release 0x08] [ok] with latch := .oneOf [0x08] }

theorem witness_failed_write : (pulse false).params.valid = true ∧ (pulse false).busy = true
    ∧ (pulse false).seq = some ⟨.clear, .write 0x0C, [.release 0x08]⟩ ∧ (pulse false).inbox = []
    ∧ (Call.write 0x0C) = .write (raised (pulse false).params 0x08) ∧ (pulse false).nextAnswer = false
    ∧ (pulse false).latch.mayHold 0x08 = true ∧ (pulse false).latch.enMayBeLow (pulse false).params = true := by
  decide

theorem witness_successful_write : (pulse true).params.valid = true ∧ (pulse true).busy = true
    ∧ (pulse true).seq = some ⟨.clear, .write 0x0C, [.release 0x08]⟩ ∧ (pulse true).inbox = []
    ∧ (pulse true).nextAnswer = true := by
  decide

/-- In the middle of a PRINTS, a read of the last address in progress; `m` decides between terminator and character. -/
def reading (m : Memory) : State := { during (.prints 0xFFF) (.read 0xFFF) [] [] with text := m }

theorem witness_MemRead_terminator : Inv (reading []) ∧ (reading []).seq = some ⟨.prints 0xFFF, .read 0xFFF, []⟩
    ∧ (reading []).inbox = [] ∧ (reading []).text.read 0xFFF = 0x00 :=
  ⟨⟨by decide, rfl, rfl, rfl, rfl, by simp, by simp [Instr.isInit], fun _ => ⟨rfl, rfl, by simp⟩⟩, rfl, rfl, by decide⟩

theorem witness_MemRead_character : Inv (reading [(0xFFF, 0x4B)])
    ∧ (reading [(0xFFF, 0x4B)]).seq = some ⟨.prints 0xFFF, .read 0xFFF, []⟩
    ∧ (reading [(0xFFF, 0x4B)]).inbox = [] ∧ (reading [(0xFFF, 0x4B)]).text.read 0xFFF ≠ 0x00 :=
  ⟨⟨by decide, rfl, rfl, rfl, rfl, by simp, by simp [Instr.isInit], fun _ => ⟨rfl, rfl, by simp⟩⟩, rfl, rfl, by decide⟩

/-- A read of 0xFFF that races with two host writes. -/
def racing : State := { reading [(0xFFF, 0x4D)] with raced := [(0xFFF, 0x4C), (0x000, 0x41), (0xFFF, 0x00)], picks := [2] }

theorem witness_RacedRead : Inv racing ∧ racing.seq = some ⟨.prints 0xFFF, .read 0xFFF, []⟩ ∧ racing.inbox = []
    ∧ racing.text.read 0xFFF :: racing.replaced 0xFFF = [0x4D, 0x4C, 0x00] :=
  ⟨⟨by decide, rfl, rfl, rfl, rfl, by simp, by simp [Instr.isInit], fun _ => ⟨rfl, rfl, by simp⟩⟩, rfl, rfl, by decide⟩

/-- A racing write, an accepted command and a step of a running command, for the other clauses. -/
theorem witness_RacedRead_clauses : (doing racing (.writeText 0xFFF 0x50)).busy = true
    ∧ see (fun t => (t.replaced 0xFFF, t.replaced 0x000)) (step (doing racing (.writeText 0xFFF 0x50)))
      = some ([0x4D, 0x4C, 0x00], [0x41])
    ∧ see (fun t => t.raced) (exec .clear { idle 1 with raced := racing.raced }) = some []
    ∧ racing.busy = true ∧ see (fun t => t.raced) (step racing) = some racing.raced := by
  decide

theorem witness_SendMessage : (during .clear (.delay 2) [] [true, true, true, true]).params.valid = true
    ∧ (during .clear (.delay 2) [] [true, true, true, true]).busy = true
    ∧ (during .clear (.delay 2) [] [true, true, true, true]).inbox = []
    ∧ (∀ j, j < 4 → (during .clear (.delay 2) [] [true, true, true, true]).answerAt j = true) := by
  decide

theorem witness_DisplayCommandsKeep : Undisturbed (idle 1) ∧ (Instr.clear).isDisplay = true
    ∧ see current (exec .clear (idle 1)) = some (some (.write 0x0C))
    ∧ see (fun u => see current (run 1 u)) (exec .clear (idle 1)) = some (some (some (.write 0x08))) :=
  ⟨idle_undisturbed 1, by decide, by decide, by decide⟩

/-- Two runs of a CLEAR: one still busy with no failed event, one ended by its first event, which failed. -/
theorem witness_OnlyTheLastEventFails : Undisturbed { idle 0 with answers := [false] }
    ∧ see (fun t => see (fun u => (u.busy, u.eventTrace)) (run 1 t)) (exec .clear (idle 1))
      = some (some (true, [.write 0x0C true]))
    ∧ see (fun t => see (fun u => (u.busy, u.lastErr, u.eventTrace)) (run 1 t)) (exec .clear { idle 0 with answers := [false] })
      = some (some (false, .transportWriteFailed, [.write 0x0C false])) :=
  ⟨⟨by decide, rfl, rfl⟩, by decide, by decide⟩

theorem witness_AssemblerFollowsTheTable : parseLine "SETBL 1".toList = .ok (some (.setbl 1))
    ∧ (AsmItem.setbl 1).word = .ok (some 0x7001) ∧ parseLine "SETCUR 2, 0".toList = .ok (some (.setcur 2 0))
    ∧ (AsmItem.setcur 2 0).word = .error .outOfRange := ⟨rfl, rfl, rfl, rfl⟩

/-- One state for each clause of the statement: a SETBL, an INIT, a text write, each accepted from reset. -/
theorem witness_Writers : see (fun t => t.bl) (step (doing State.reset (.command 0x7000))) = some false
    ∧ see (fun t => t.phase) (step (doing afterInit (.command 0x0000))) = some .uninit
    ∧ see (fun t => t.text.read 0xFFF) (step (doing State.reset (.writeText 0xFFF 0x41))) = some 0x41 := by
  decide
/-- The reset disjunct: reset with the backlight off after a complete INIT changes backlight, phase and index. -/
theorem witness_Writers_reset : Inv { doing afterInit .reset with bl := false }
    ∧ { doing afterInit .reset with bl := false }.inbox = .reset :: []
    ∧ see (fun t => (t.bl, t.phase, t.cfgIdx)) (step { doing afterInit .reset with bl := false }) = some (true, .uninit, 0) :=
  ⟨⟨by decide, rfl, rfl, rfl, rfl, rfl, rfl⟩, rfl, by decide⟩
theorem witness_Writers_inv : Inv (doing State.reset (.command 0x7000)) ∧ Inv (doing State.reset (.writeText 0xFFF 0x41))
    ∧ Inv (doing afterInit (.command 0x0000)) :=
  ⟨⟨by decide, rfl, rfl, rfl, rfl, rfl⟩, ⟨by decide, rfl, rfl, rfl, rfl, rfl⟩, ⟨by decide, rfl, rfl, rfl, rfl, rfl, rfl⟩⟩

theorem witness_TextWrite : (doing withText (.writeText 0xFFF 0x00)).params.valid = true
    ∧ (doing withText (.writeText 0xFFF 0x00)).text.wf = true
    ∧ (doing withText (.writeText 0xFFF 0x00)).inbox = .writeText 0xFFF 0x00 :: []
    ∧ (doing withText (.writeText 0x000 0x41)).inbox = .writeText 0x000 0x41 :: []
    ∧ (doing (reading []) (.writeText 0xFFF 0x41)).params.valid = true ∧ (doing (reading []) (.writeText 0xFFF 0x41)).busy = true
    ∧ (doing (reading []) (.writeText 0xFFF 0x41)).text.wf = true := by
  decide

theorem witness_Instances : (match stepInstance 1 [idle 0, doing (idle 0) (.command 0x7000)] with
    | .next cs => cs.length
    | .fault _ => 0
    | .refused _ => 0) = 2 ∧ 0 ≠ 1 := by
  decide

end Sys2Proof.Tests
end

section
/-! SUPPORT. The response word (spec/30_encoding.md R105, R106): its two fields, and the codes that occur. -/

namespace Sys2Proof.Machine

theorem response_getLsbD_three (e : ErrCode) : e.response.getLsbD 3 = e.fail := by
  rw [ErrCode.response, BitVec.getLsbD_append, if_neg (by decide)]
  simp

theorem response_extractLsb'_code (e : ErrCode) : e.response.extractLsb' 0 3 = e.code :=
  BitVec.extractLsb'_append_eq_right

/-- Only success has code 0 (R105). -/
theorem code_eq_zero_iff (e : ErrCode) : e.code = 0 ↔ e.fail = false := by
  cases e <;> decide

/-- Codes 6 and 7 are never produced (R106). -/
theorem code_lt_six (e : ErrCode) : e.code < 6 := by
  cases e <;> decide

/-- A word whose `CODE` field is 6 or 7 is no response. -/
theorem response_ne_of_six_le_code (e : ErrCode) {r : Nibble} (hr : 6 ≤ r.extractLsb' 0 3) : e.response ≠ r := by
  rintro rfl
  rw [response_extractLsb'_code] at hr
  exact BitVec.not_lt.mpr hr (code_lt_six e)

/-- Settles O17: the two fields of the word for every kind, from which 0xE and 0xF are excluded with codes 6 and 7; the
rows of R106's table are evaluated. -/
theorem responseWords : Obligations.ResponseWords := by
  refine ⟨fun e => ⟨response_getLsbD_three e, response_extractLsb'_code e, code_eq_zero_iff e, ?_, ?_, ?_, ?_⟩, ?_⟩
  · exact BitVec.ne_of_lt (code_lt_six e)
  · exact BitVec.ne_of_lt (BitVec.lt_trans (code_lt_six e) (by decide))
  · exact response_ne_of_six_le_code e (by decide)
  · exact response_ne_of_six_le_code e (by decide)
  · decide

end Sys2Proof.Machine
end

section
/-! SUPPORT. The expander byte (spec/30_encoding.md R95, R96): the payload on top, the control lines below it, and the
enable bit of a pulse's first write (spec/40_encoder.md R131). -/

namespace Sys2Proof.Machine

/-- With the payload shift R14 allows, the nibble stands in bits [7:4] and the control lines are OR-ed in. -/
theorem nib_eq_append_or {p : Params} (h : p.payloadShift = 4) (bl : Bool) (n : Nibble) (rs : RegSelect) :
    nib p bl n rs = (n ++ 0#4) ||| (p.rsValue rs ||| (BitVec.ofBool bl).setWidth 8 <<< p.blPos) := by
  have payload : n ++ 0#4 = n.setWidth 8 <<< 4 := by
    simpa using BitVec.setWidth_append_eq_shiftLeft_setWidth_or (b := n) (b' := 0#4) (w'' := 8)
  rw [nib, h, payload, BitVec.or_comm]

/-- The payload reaches none of the four control lines. -/
theorem nib_getLsbD_low {p : Params} (h : p.payloadShift = 4) (bl : Bool) (n : Nibble) (rs : RegSelect) {k : Nat}
    (hk : k < 4) :
    (nib p bl n rs).getLsbD k = (p.rsValue rs ||| (BitVec.ofBool bl).setWidth 8 <<< p.blPos).getLsbD k := by
  rw [nib_eq_append_or h, BitVec.getLsbD_or, BitVec.getLsbD_append, if_pos hk]
  simp

/-- The first write of a pulse differs from the second in the enable bit only. -/
theorem raised_getLsbD_of_ne {p : Params} (v : Byte) {k : Nat} (hk : k ≠ p.enBit) :
    (raised p v).getLsbD k = v.getLsbD k := by
  rw [raised, Params.enMask, ← BitVec.twoPow_eq, BitVec.getLsbD_or, BitVec.getLsbD_twoPow]
  simp [hk.symm]

/-- R97 at the default parameters: neither the register-select nor the backlight drives the R/W line. -/
theorem nib_default_getLsbD_one (bl : Bool) (n : Nibble) (rs : RegSelect) :
    (nib Params.default bl n rs).getLsbD 1 = false := by
  rw [nib_getLsbD_low rfl bl n rs (by decide)]
  cases rs <;> cases bl <;> decide

/-- Settles O19: each byte is the nibble over the control lines, whose value is a matter of the register-select and the
backlight alone. -/
theorem expanderBytesAtDefaults : Obligations.ExpanderBytesAtDefaults := by
  refine fun bl n => ⟨?command, ?data, fun rs => ⟨rfl, nib_default_getLsbD_one bl n rs, ?readWrite⟩⟩
  case command | data =>
    rw [nib_eq_append_or rfl]
    cases bl <;> rfl
  case readWrite =>
    rw [raised_getLsbD_of_ne _ (by decide), nib_default_getLsbD_one]

end Sys2Proof.Machine
end

section
/-! SUPPORT. What a display command changes while it runs (spec/42_display_ops.md R178): its pseudocode writes none of the
registers that INIT, SETBL and the host own, so a started one keeps them at every step, and `S.faulted` moves only with the
transport error that ends the command. -/

namespace Sys2Proof.Machine

theorem SameRegisters.trans {s t u : State} (hst : SameRegisters s t) (htu : SameRegisters t u) : SameRegisters s u where
  params := htu.params.trans hst.params
  phase := htu.phase.trans hst.phase
  cfgIdx := htu.cfgIdx.trans hst.cfgIdx
  bl := htu.bl.trans hst.bl
  text := htu.text.trans hst.text
  inbox := htu.inbox.trans hst.inbox

/-- What every step keeps holds after every run. -/
theorem run_preserves {P : State → Prop} (hstep : ∀ s t, P s → step s = .next t → P t) :
    ∀ (n : Nat) (s t : State), P s → run n s = .next t → P t
  | 0, s, t, hs, h => by
    obtain rfl : s = t := by simpa [run] using h
    exact hs
  | n + 1, s, t, hs, h => by
    cases hs' : step s with
    | next s' => exact run_preserves hstep n s' t (hstep s s' hs hs') (by simpa [run, hs'] using h)
    | fault r => simp [run, hs'] at h
    | refused r => simp [run, hs'] at h

/-- An accepted command runs its pseudocode from the state that has recorded it (43_control_ops.md R203). -/
theorem start_eq_next {c : Instr} {k : List Micro} {s t : State} (h : start c k s = .next t) :
    t = proceed c k { s.record (.accepted c) with busy := true, raced := [] } := by
  unfold start at h
  split at h
  · cases h
  · split at h
    · cases h
    · exact (Host.Outcome.next.inj h).symm

section
variable {c : Instr} {k : List Micro} {s : State}

theorem proceed_phase_of_display (hc : c.isInit = false) (hk : k.all Micro.inDisplay = true) :
    (proceed c k s).phase = s.phase := by
  fun_induction proceed c k s <;> simp_all [Micro.inDisplay]

theorem proceed_cfgIdx_of_display (hk : k.all Micro.inDisplay = true) : (proceed c k s).cfgIdx = s.cfgIdx := by
  fun_induction proceed c k s <;> simp_all [Micro.inDisplay]

theorem setBl_not_mem_of_display (hk : k.all Micro.inDisplay = true) (v : Bool) : .setBl v ∉ k := fun hv =>
  Bool.false_ne_true (List.all_eq_true.mp hk _ hv)

/-- 42_display_ops.md R178, along the pseudocode up to its next call. -/
theorem proceed_sameRegisters (hc : c.isInit = false) (hk : k.all Micro.inDisplay = true) :
    SameRegisters s (proceed c k s) where
  params := proceed_params c k s
  phase := proceed_phase_of_display hc hk
  cfgIdx := proceed_cfgIdx_of_display hk
  bl := proceed_bl c k s (setBl_not_mem_of_display hk)
  text := proceed_text c k s
  inbox := proceed_inbox c k s

end

/-- The sequencer is inside a display command's pseudocode. -/
def Seq.InDisplay (r : Seq) : Prop := r.cmd.isInit = false ∧ r.rest.all Micro.inDisplay = true

theorem proceed_seq_inDisplay {c : Instr} {k : List Micro} {s : State} (hc : c.isInit = false)
    (hk : k.all Micro.inDisplay = true) : ∀ r, (proceed c k s).seq = some r → r.InDisplay := by
  fun_induction proceed c k s <;> simp_all [Micro.inDisplay, Seq.InDisplay]

/-- A command behind the readiness gate is started with a display pseudocode (42_display_ops.md R171 to R176). -/
theorem exec_eq_start_of_isDisplay {i : Instr} (hi : i.isDisplay = true) (s : State) :
    i.isInit = false ∧ ∃ k, k.all Micro.inDisplay = true ∧ exec i s = start i k s := by
  cases i with
  | clear => exact ⟨rfl, clearProgram s.params, by simp [clearProgram, allD_msg, Micro.inDisplay], rfl⟩
  | printc ch => exact ⟨rfl, printcProgram s.params ch, by simp [printcProgram, allD_msg, Micro.inDisplay], rfl⟩
  | prints addr => exact ⟨rfl, printsProgram s.params addr, by simp [printsProgram, allD_msg, Micro.inDisplay], rfl⟩
  | setcur row col => exact ⟨rfl, setcurProgram s.params row col, by simp [setcurProgram, allD_msg, Micro.inDisplay], rfl⟩
  | curon => exact ⟨rfl, curonProgram s.params, by simp [curonProgram, allD_msg, Micro.inDisplay], rfl⟩
  | curoff => exact ⟨rfl, curoffProgram s.params, by simp [curoffProgram, allD_msg, Micro.inDisplay], rfl⟩
  | init => cases hi
  | setbl v => cases hi
  | reserved w => cases hi

/-- What completing a call of a display command can do: its pseudocode goes on after the call's effect on the environment
and the record, or the transport's failure ends the command (60_exceptions.md R227). -/
theorem advance_display_cases {r : Seq} (hr : r.InDisplay) (s : State) : ∃ s', SameRegisters s s' ∧ s'.faulted = s.faulted ∧
    ((∃ k, k.all Micro.inDisplay = true ∧ advance r s = proceed r.cmd k s')
      ∨ ∃ kind : ErrCode, kind.isTransport = true ∧ advance r s = raise r.cmd kind s') := by
  obtain ⟨c, call, rest⟩ := r
  obtain ⟨-, hk⟩ := hr
  cases call with
  | busInit =>
    rw [advance_busInit]
    split
    · exact ⟨afterBusInit true s, ⟨rfl, rfl, rfl, rfl, rfl, rfl⟩, rfl, .inl ⟨rest, hk, rfl⟩⟩
    · exact ⟨afterBusInit false s, ⟨rfl, rfl, rfl, rfl, rfl, rfl⟩, rfl, .inr ⟨.transportInitFailed, rfl, rfl⟩⟩
  | write v =>
    rw [advance_write]
    split
    · exact ⟨afterBusWrite v true s, ⟨rfl, rfl, rfl, rfl, rfl, rfl⟩, rfl, .inl ⟨rest, hk, rfl⟩⟩
    · exact ⟨afterBusWrite v false s, ⟨rfl, rfl, rfl, rfl, rfl, rfl⟩, rfl, .inr ⟨.transportWriteFailed, rfl, rfl⟩⟩
  | delay ms => exact ⟨s.emit (.delay ms), ⟨rfl, rfl, rfl, rfl, rfl, rfl⟩, rfl, .inl ⟨rest, hk, rfl⟩⟩
  | read a =>
    refine ⟨afterMemRead a s, ⟨rfl, rfl, rfl, rfl, rfl, rfl⟩, rfl, .inl ?_⟩
    rw [advance_read]
    split
    · exact ⟨[], rfl, rfl⟩
    · exact ⟨_, by rw [List.all_append, allD_msg]; exact hk, rfl⟩

/-- How a display command accepted in the state `s` is found in the state `u`: running with `S.faulted` as it was, or ended,
and then only a transport error has set it. -/
structure DisplayKeeps (s u : State) : Prop where
  same : SameRegisters s u
  inDisplay : ∀ r, u.seq = some r → r.InDisplay
  faulted : u.faulted = s.faulted ∨ (u.busy = false ∧ u.faulted = true ∧ u.lastErr.isTransport = true)

/-- Display pseudocode that runs on from a state with the registers of `s`. -/
theorem displayKeeps_proceed {c : Instr} {k : List Micro} {s s' : State} (hc : c.isInit = false)
    (hk : k.all Micro.inDisplay = true) (hs : SameRegisters s s') (hf : s'.faulted = s.faulted) :
    DisplayKeeps s (proceed c k s') where
  same := hs.trans (proceed_sameRegisters hc hk)
  inDisplay := proceed_seq_inDisplay hc hk
  faulted := .inl ((proceed_faulted c k s').trans hf)

/-- A display command that a transport error ends in a state with the registers of `s`. -/
theorem displayKeeps_raise {c : Instr} {kind : ErrCode} {s s' : State} (hc : c.isInit = false)
    (hkind : kind.isTransport = true) (hs : SameRegisters s s') : DisplayKeeps s (raise c kind s') where
  same := hs.trans ⟨rfl, by simp [hc], rfl, rfl, rfl, rfl⟩
  inDisplay := by simp
  faulted := .inr ⟨rfl, by simp [hkind], hkind⟩

/-- Every step keeps it while the host does nothing: the command's call completes, or the idle block waits. -/
theorem displayKeeps_step {s u t : State} (hs : Undisturbed s) (hu : DisplayKeeps s u) (h : step u = .next t) :
    DisplayKeeps s t := by
  have hv : u.params.valid = true := by rw [hu.same.params]; exact hs.valid
  have hi : u.inbox = [] := hu.same.inbox.trans hs.alone
  cases hb : u.busy with
  | false =>
    rw [step_quiet hv hi, blockStep, hb] at h
    obtain rfl := Host.Outcome.next.inj h
    exact hu
  | true =>
    cases hq : u.seq with
    | none => simp [step_quiet hv hi, blockStep, hb, hq] at h
    | some r =>
      rw [step_advance hv hi hb hq] at h
      obtain rfl := Host.Outcome.next.inj h
      have hr : r.InDisplay := hu.inDisplay r hq
      have hf : u.faulted = s.faulted := hu.faulted.resolve_right (fun hend => by simp [hb] at hend)
      obtain ⟨u', hsame, hf', ⟨k, hk, heq⟩ | ⟨kind, hkind, heq⟩⟩ := advance_display_cases hr u
      · rw [heq]
        exact displayKeeps_proceed hr.1 hk (hu.same.trans hsame) (hf'.trans hf)
      · rw [heq]
        exact displayKeeps_raise hr.1 hkind (hu.same.trans hsame)

/-- Settles O45: accepting the command establishes `DisplayKeeps`, and every step of the run keeps it. -/
theorem displayCommandsKeepTheRegisters : Obligations.DisplayCommandsKeepTheRegisters := by
  intro i s t u n hs hi hexec hrun
  obtain ⟨hc, k, hk, heq⟩ := exec_eq_start_of_isDisplay hi s
  have ht : DisplayKeeps s t := by
    rw [start_eq_next (heq.symm.trans hexec)]
    exact displayKeeps_proceed hc hk ⟨rfl, rfl, rfl, rfl, rfl, rfl⟩ rfl
  have hu : DisplayKeeps s u := run_preserves (fun _ _ => displayKeeps_step hs) n t u ht hrun
  exact ⟨hu.same, fun a => by rw [hu.same.text], fun hne => (hu.faulted.resolve_left hne).2⟩

end Sys2Proof.Machine
end

section
/-! SUPPORT. Illegal words (spec/30_encoding.md R94, R107): `isIllegal` read as the two rules of R94, and the decoder, which
tests fields of `ARG` where R92 marks reserved bits, rejects the words that break one of them. -/

namespace Sys2Proof

/-- The reserved opcodes (R91). -/
theorem formatOf_eq_none_iff (op : BitVec 4) : formatOf op = none ↔ 8 ≤ op.toNat := by
  revert op
  decide

theorem isIllegal_iff (w : Word) : isIllegal w = true ↔
    8 ≤ (opField w).toNat ∨ ∃ f, formatOf (opField w) = some f ∧ argField w &&& f.reservedBits ≠ 0 := by
  rw [← formatOf_eq_none_iff, isIllegal]
  cases formatOf (opField w) <;> simp

/-- The field of the bits from `k` up is zero exactly when the mask of these bits finds none set. -/
theorem extractLsb'_eq_zero_iff_and_mask {n : Nat} (x : BitVec n) (k : Nat) :
    x.extractLsb' k (n - k) = 0#_ ↔ x &&& BitVec.allOnes n <<< k = 0#n := by
  constructor
  · intro hfield
    ext i hi
    have hbit : (x.extractLsb' k (n - k)).getLsbD (i - k) = false := by rw [hfield, BitVec.getLsbD_zero]
    grind
  · intro hmask
    ext i hi
    have hbit : (x &&& BitVec.allOnes n <<< k).getLsbD (k + i) = false := by rw [hmask, BitVec.getLsbD_zero]
    grind

/-- A row of the decoder tests its field for zero: a reserved bit of its format fails the test, and only the word itself is
left. -/
theorem decode_of_isIllegal {w : Word} (h : isIllegal w = true) : decode w = .reserved w := by
  have hset : ∀ f, formatOf (opField w) = some f → argField w &&& f.reservedBits ≠ 0 := fun f hf => by
    simpa [isIllegal, hf] using h
  have hz : formatOf (opField w) = some .z → argField w ≠ 0 := fun hf h0 => hset .z hf (by rw [h0]; rfl)
  simp only [decode]
  split
  case h_1 hop | h_2 hop | h_6 hop | h_7 hop => exact if_neg (hz (by simp [formatOf, hop]))
  case h_3 hop => exact if_neg (mt (extractLsb'_eq_zero_iff_and_mask _ 8).mp (hset .c (by simp [formatOf, hop])))
  case h_4 hop => exact absurd BitVec.and_zero (hset .a (by simp [formatOf, hop]))
  case h_5 hop => exact if_neg (mt (extractLsb'_eq_zero_iff_and_mask _ 9).mp (hset .p (by simp [formatOf, hop])))
  case h_8 hop => exact if_neg (mt (extractLsb'_eq_zero_iff_and_mask _ 1).mp (hset .b (by simp [formatOf, hop])))
  case h_9 => rfl

end Sys2Proof
end

section
/-! SUPPORT. What the two ports of spec/43_control_ops.md do: a command word offered to an idle block (R203), answered at once
when it is illegal (R202), and a status read (R201). -/

namespace Sys2Proof.Machine

theorem step_command_of_idle {s : State} {w : Word} {rest : List HostAction} (hv : s.params.valid = true)
    (hb : s.busy = false) (hi : s.inbox = .command w :: rest) : step s = exec (decode w) { s with inbox := rest } := by
  simp [step, hv, hb, hi]

theorem step_readStatus {s : State} {rest : List HostAction} (hv : s.params.valid = true)
    (hi : s.inbox = .readStatus :: rest) : step s = .next (readStatusPort { s with inbox := rest }) := by
  simp [step, hv, hi]

theorem start_of_idle {s : State} (c : Instr) (k : List Micro) (hv : s.params.valid = true) (hb : s.busy = false) :
    start c k s = .next (proceed c k { s.record (.accepted c) with busy := true, raced := [] }) := by
  simp [start, hv, hb]

/-- A command other than INIT that its own checks reject before it has issued a call (60_exceptions.md R224). -/
theorem raise_accepted {c : Instr} {e : ErrCode} {s : State} (hc : c.isInit = false) (he : e.isTransport = false)
    (hb : s.busy = false) :
    raise c e { s.record (.accepted c) with busy := true, raced := [] } = answeredAtOnce c e s := by
  simp [raise, answeredAtOnce, hc, he, hb]

theorem exec_reserved_of_idle {s : State} (w : Word) (hv : s.params.valid = true) (hb : s.busy = false) :
    exec (.reserved w) s = .next (answeredAtOnce (.reserved w) .illegalCommand s) :=
  (start_of_idle (.reserved w) [.illegal] hv hb).trans (congrArg _ (raise_accepted rfl rfl hb))

/-- Settles O5: an offered word is decoded and executed, an illegal one decodes to the command that rejects it, and its
pseudocode raises at once. -/
theorem illegalWordIsRejected : Obligations.IllegalWordIsRejected := by
  refine ⟨fun s w rest hw hv hb hi => ?_, isIllegal_iff, by decide⟩
  calc step s = exec (decode w) { s with inbox := rest } := step_command_of_idle hv hb hi
    _ = exec (.reserved w) { s with inbox := rest } := by rw [decode_of_isIllegal hw]
    _ = .next (answeredAtOnce (.reserved w) .illegalCommand { s with inbox := rest }) := exec_reserved_of_idle w hv hb

/-- A status read is on the record and not in the trace (10_state.md R41). -/
theorem eventTrace_readStatusPort (s : State) : (readStatusPort s).eventTrace = s.eventTrace := by
  simp [State.eventTrace, Entry.event?]

/-- Settles O16: the step is the status port's, which only records the word; the two example words are evaluated. -/
theorem statusReadHasNoSideEffect : Obligations.StatusReadHasNoSideEffect := by
  refine ⟨fun s rest hv hi => ⟨_, step_readStatus hv hi, rfl, eventTrace_readStatusPort _⟩, by decide, ?ready⟩
  case ready =>
    intro s hcfg herr hbusy hbl hfaulted hphase
    rw [State.statusWord, hcfg, herr, hbusy, hbl, hfaulted, hphase]
    decide

end Sys2Proof.Machine
end

section
/-! SUPPORT. Decoder and encoder (spec/30_encoding.md R92, R107) are inverse to each other, and the decoder, the pattern rows
and the reserved bits of the formats agree (R94). -/

namespace Sys2Proof

/-! The words of the commands with an operand, as `OP` and `ARG`. -/

theorem encode_printc (ch : Byte) : encode (.printc ch) = 2#4 ++ (0#4 ++ ch) :=
  BitVec.append_assoc (x₁ := 2#4) (x₂ := 0#4)

theorem encode_prints (addr : TextAddr) : encode (.prints addr) = 3#4 ++ addr := rfl

theorem encode_setcur (row : Row) (col : Byte) : encode (.setcur row col) = 4#4 ++ (0#3 ++ (row.bit ++ col)) := by
  have h : 0b0100000#7 ++ row.bit ++ col = 0b0100000#7 ++ (row.bit ++ col) := BitVec.append_assoc
  exact h.trans (BitVec.append_assoc (x₁ := 4#4) (x₂ := 0#3))

theorem encode_setbl (v : Bool) : encode (.setbl v) = 7#4 ++ (0#11 ++ BitVec.ofBool v) :=
  BitVec.append_assoc (x₁ := 7#4) (x₂ := 0#11)

/-- Settles O2: the fields of the word of each command pass the decoder's tests and are its operands; an illegal word is
left to `decode_of_isIllegal`. -/
theorem decodeOfEncodeIsIdentity : Obligations.DecodeOfEncodeIsIdentity := by
  intro i hi
  cases i with
  | init | clear | curon | curoff => rfl
  | printc ch =>
    have hfield : (0#4 ++ ch).extractLsb' 8 4 = 0 := BitVec.extractLsb'_append_eq_left
    have hch : (0#4 ++ ch).extractLsb' 0 8 = ch := BitVec.extractLsb'_append_eq_right
    rw [encode_printc, decode, opField_append, argField_append]
    exact (if_pos hfield).trans (congrArg Instr.printc hch)
  | prints addr =>
    rw [encode_prints, decode, opField_append, argField_append]
    rfl
  | setcur row col =>
    have hfield : (0#3 ++ (row.bit ++ col)).extractLsb' 9 3 = 0 := BitVec.extractLsb'_append_eq_left
    have hcol : (0#3 ++ (row.bit ++ col)).extractLsb' 0 8 = col :=
      (BitVec.extractLsb'_append_eq_of_add_le (by decide)).trans BitVec.extractLsb'_append_eq_right
    have hrow : rowOfBit ((0#3 ++ (row.bit ++ col)).getLsbD 8) = row := by
      rw [BitVec.getLsbD_append, if_pos (by decide), BitVec.getLsbD_append, if_neg (by decide)]
      cases row <;> rfl
    rw [encode_setcur, decode, opField_append, argField_append]
    exact (if_pos hfield).trans (congrArg₂ Instr.setcur hrow hcol)
  | setbl v =>
    have hfield : (0#11 ++ BitVec.ofBool v).extractLsb' 1 11 = 0 := BitVec.extractLsb'_append_eq_left
    have hv : (0#11 ++ BitVec.ofBool v).getLsbD 0 = v := by
      rw [BitVec.getLsbD_append, if_pos (by decide)]
      cases v <;> rfl
    rw [encode_setbl, decode, opField_append, argField_append]
    exact (if_pos hfield).trans (congrArg Instr.setbl hv)
  | reserved w => exact decode_of_isIllegal hi

/-- An `ARG` whose field of the bits from `n` up is zero is its low `n` bits. -/
theorem append_low_of_field_eq_zero {m n : Nat} {x : BitVec (m + n)} (h : x.extractLsb' n m = 0) :
    0#m ++ x.extractLsb' 0 n = x := by
  rw [show 0#m = x.extractLsb' n m from h.symm, BitVec.extractLsb'_append_extractLsb']

theorem ofBool_getLsbD {n : Nat} (x : BitVec n) (k : Nat) : BitVec.ofBool (x.getLsbD k) = x.extractLsb' k 1 := by
  ext i hi
  obtain rfl : i = 0 := by omega
  simp

theorem bit_rowOfBit (b : Bool) : (rowOfBit b).bit = BitVec.ofBool b := by cases b <;> rfl

/-- The decoder drops no bit of a word: a field that it does not keep as an operand has passed the test for zero. -/
theorem encode_decode (w : Word) : encode (decode w) = w := by
  have hword {op : BitVec 4} {arg : BitVec 12} (hop : (opField w).toNat = op.toNat) (harg : arg = argField w) :
      op ++ arg = w := by
    rw [harg, ← BitVec.eq_of_toNat_eq hop, opField_argField]
  simp only [decode]
  -- a word that stays as it is in `.reserved` is its own word
  split <;> (try split) <;> try rfl
  case h_1.isTrue hop harg => exact hword (op := 0) hop harg.symm
  case h_2.isTrue hop harg => exact hword (op := 1) hop harg.symm
  case h_3.isTrue hop harg => exact (encode_printc _).trans (hword (op := 2) hop (append_low_of_field_eq_zero harg))
  case h_4 hop => exact hword (op := 3) hop rfl
  case h_5.isTrue hop harg =>
    have hlow : (rowOfBit ((argField w).getLsbD 8)).bit ++ (argField w).extractLsb' 0 8 = (argField w).extractLsb' 0 9 := by
      rw [bit_rowOfBit, ofBool_getLsbD]
      exact BitVec.extractLsb'_append_extractLsb'_eq_extractLsb' rfl
    rw [encode_setcur, hlow]
    exact hword (op := 4) hop (append_low_of_field_eq_zero harg)
  case h_6.isTrue hop harg => exact hword (op := 5) hop harg.symm
  case h_7.isTrue hop harg => exact hword (op := 6) hop harg.symm
  case h_8.isTrue hop harg =>
    rw [encode_setbl, ofBool_getLsbD]
    exact hword (op := 7) hop (append_low_of_field_eq_zero harg)

/-- A reserved bit that is set makes a word of a legal opcode illegal (R94). -/
theorem isIllegal_of_reservedBits {w : Word} {f : Format} (hf : formatOf (opField w) = some f)
    (hset : argField w &&& f.reservedBits ≠ 0) : isIllegal w = true :=
  (isIllegal_iff w).mpr (.inr ⟨f, hf, hset⟩)

/-- A word that fails a test of the decoder breaks a rule of R94. -/
theorem decode_wellFormed (w : Word) : (decode w).WellFormed := by
  have hz (hf : formatOf (opField w) = some .z) (h : argField w ≠ 0) : isIllegal w = true :=
    isIllegal_of_reservedBits hf
      (by rwa [Format.reservedBits, show (0xFFF : BitVec 12) = .allOnes 12 from rfl, BitVec.and_allOnes])
  simp only [decode]
  -- what is left are the words that go to `.reserved`
  split <;> (try split) <;> try rfl
  case h_1.isFalse hop h | h_2.isFalse hop h | h_6.isFalse hop h | h_7.isFalse hop h => exact hz (by simp [formatOf, hop]) h
  case h_3.isFalse hop h =>
    exact isIllegal_of_reservedBits (f := .c) (by simp [formatOf, hop]) (mt (extractLsb'_eq_zero_iff_and_mask _ 8).mpr h)
  case h_5.isFalse hop h =>
    exact isIllegal_of_reservedBits (f := .p) (by simp [formatOf, hop]) (mt (extractLsb'_eq_zero_iff_and_mask _ 9).mpr h)
  case h_8.isFalse hop h =>
    exact isIllegal_of_reservedBits (f := .b) (by simp [formatOf, hop]) (mt (extractLsb'_eq_zero_iff_and_mask _ 1).mpr h)
  case h_9 => exact (isIllegal_iff w).mpr (.inl ((formatOf_eq_none_iff _).mp (by simp [formatOf, *])))

/-- Settles O3: an operand field that the decoder drops has passed its test for zero, and a word that fails a test breaks a
rule of R94. -/
theorem everyWordIsOneCommand : Obligations.EveryWordIsOneCommand :=
  fun w => ⟨decode_wellFormed w, encode_decode w⟩

theorem row_eq_none_iff (i : Instr) : i.row = none ↔ ∃ w, i = .reserved w := by
  cases i <;> simp [Instr.row]

/-- Only illegal words decode to the instruction that rejects them. -/
theorem isIllegal_iff_decode (w : Word) : isIllegal w = true ↔ decode w = .reserved w := by
  refine ⟨decode_of_isIllegal, fun h => ?_⟩
  have hwf := decode_wellFormed w
  rwa [h] at hwf

theorem decode_eq_reserved {w w' : Word} (h : decode w = .reserved w') : w' = w := by
  have := encode_decode w
  rwa [h] at this

/-- R92's rows find every command in its word. -/
theorem rowOf_encode : ∀ i : Instr, i.WellFormed → rowOf (encode i) = i.row
  | .init => Laws.RowOfEncode.init
  | .clear => Laws.RowOfEncode.clear
  | .printc ch => Laws.RowOfEncode.printc ch
  | .prints addr => Laws.RowOfEncode.prints addr
  | .setcur row col => Laws.RowOfEncode.setcur row col
  | .curon => Laws.RowOfEncode.curon
  | .curoff => Laws.RowOfEncode.curoff
  | .setbl v => Laws.RowOfEncode.setbl v
  | .reserved w => Laws.RowOfEncode.reserved w

theorem rowOf_eq_row_decode (w : Word) : (decode w).row = rowOf w := by
  have h := rowOf_encode (decode w) (decode_wellFormed w)
  rw [encode_decode] at h
  exact h.symm

/-- Every row fixes the whole of `OP`. -/
theorem opField_eq_of_fits {p : Pattern} (hp : p ∈ patterns) {w : Word} (h : p.fits w = true) : opField w = opField p.bits := by
  have hmask : ∀ p ∈ patterns, opField p.mask = BitVec.allOnes 4 := by decide
  rw [← opField_argField w, fits_append, hmask p hp, BitVec.and_allOnes] at h
  exact beq_iff_eq.mp (Bool.and_eq_true_iff.mp h).1

/-- No two rows match the same word: each has an `OP` of its own. -/
theorem pattern_unique {w : Word} {p q : Pattern} (hp : p ∈ patterns) (hq : q ∈ patterns) (hpw : p.fits w = true)
    (hqw : q.fits w = true) : p = q := by
  have hop : ∀ p ∈ patterns, ∀ q ∈ patterns, opField p.bits = opField q.bits → p = q := by decide
  exact hop p hp q hq ((opField_eq_of_fits hp hpw).symm.trans (opField_eq_of_fits hq hqw))

/-- Settles O4: the word of the decoded command is the word, so the rows find that command's row; a word has no row exactly
when the decoder rejects it. -/
theorem decoderAgreesWithPatternsAndFormats : Obligations.DecoderAgreesWithPatternsAndFormats := by
  intro w
  refine ⟨rowOf_eq_row_decode w, ?_, isIllegal_iff_decode w, fun p hp q hq => pattern_unique hp hq⟩
  rw [← rowOf_eq_row_decode, row_eq_none_iff, isIllegal_iff_decode]
  exact ⟨fun ⟨w', h⟩ => by rwa [decode_eq_reserved h] at h, fun h => ⟨w, h⟩⟩

/-- Settles O1: closed words, evaluated. -/
theorem writtenOutWordsDecode : Obligations.WrittenOutWordsDecode := by
  unfold Obligations.WrittenOutWordsDecode
  decide

end Sys2Proof
end

section
/-! SUPPORT. One law for each of the machine's two shared transitions: what completing the call in progress does (spec/00_scope.md
R10, spec/60_exceptions.md R227), and which cases a step has. -/

namespace Sys2Proof.Machine

/-- The event a call becomes when it is answered in the state `s` (00_scope.md R17). -/
def State.answerEvent (s : State) : Call → Event
  | .busInit => .init s.nextAnswer
  | .write v => .write v s.nextAnswer
  | .delay ms => .delay ms
  | .read a => .read a (s.readByte a)

/-- The state after a call has been answered, before the pseudocode goes on. -/
def State.afterCall (s : State) : Call → State
  | .busInit => afterBusInit s.nextAnswer s
  | .write v => afterBusWrite v s.nextAnswer s
  | .delay ms => s.emit (.delay ms)
  | .read a => afterMemRead a s

/-- The error a failing call raises; only the two transport calls fail (60_exceptions.md R221). -/
def Call.failure : Call → ErrCode
  | .busInit => .transportInitFailed
  | .write _ => .transportWriteFailed
  | .delay _ => .ok
  | .read _ => .ok

/-- The pseudocode that goes on after the call in progress: PRINTS tests the character it has read (42_display_ops.md R173). -/
def Seq.goesOn (r : Seq) (s : State) : List Micro :=
  match r.call with
  | .read a => if s.readByte a = terminator then [] else sendMessage s.params (s.readByte a) .data ++ .nextChar a :: r.rest
  | .busInit => r.rest
  | .write _ => r.rest
  | .delay _ => r.rest

/-- Completing the call in progress: its event and effect, then either the end with its error or the pseudocode goes on. -/
theorem advance_eq (r : Seq) (s : State) : advance r s =
    if (s.answerEvent r.call).failed then raise r.cmd r.call.failure (s.afterCall r.call)
    else proceed r.cmd (r.goesOn s) (s.afterCall r.call) := by
  obtain ⟨c, call, k⟩ := r
  cases call with
  | busInit =>
    cases h : s.nextAnswer <;>
      simp [advance, h, State.answerEvent, Event.failed, State.afterCall, Seq.goesOn, Call.failure]
  | write v =>
    cases h : s.nextAnswer <;>
      simp [advance, h, State.answerEvent, Event.failed, State.afterCall, Seq.goesOn, Call.failure]
  | delay ms => rfl
  | read a =>
    simp only [advance_read, State.answerEvent, Event.failed, State.afterCall, Seq.goesOn]
    split <;> rfl

theorem failure_isTransport_of_failed {s : State} {call : Call} (h : (s.answerEvent call).failed = true) :
    call.failure.isTransport = true := by
  cases call <;> simp_all [State.answerEvent, Event.failed, Call.failure, ErrCode.isTransport]

section
variable (s : State) (call : Call)

@[simp] theorem afterCall_params : (s.afterCall call).params = s.params := by cases call <;> rfl
@[simp] theorem afterCall_phase : (s.afterCall call).phase = s.phase := by cases call <;> rfl
@[simp] theorem afterCall_cfgIdx : (s.afterCall call).cfgIdx = s.cfgIdx := by cases call <;> rfl
@[simp] theorem afterCall_bl : (s.afterCall call).bl = s.bl := by cases call <;> rfl
@[simp] theorem afterCall_faulted : (s.afterCall call).faulted = s.faulted := by cases call <;> rfl
@[simp] theorem afterCall_lastErr : (s.afterCall call).lastErr = s.lastErr := by cases call <;> rfl
@[simp] theorem afterCall_busy : (s.afterCall call).busy = s.busy := by cases call <;> rfl
@[simp] theorem afterCall_text : (s.afterCall call).text = s.text := by cases call <;> rfl
@[simp] theorem afterCall_raced : (s.afterCall call).raced = s.raced := by cases call <;> rfl
@[simp] theorem afterCall_inbox : (s.afterCall call).inbox = s.inbox := by cases call <;> rfl
@[simp] theorem afterCall_log : (s.afterCall call).log = s.log ++ [.event (s.answerEvent call)] := by cases call <;> rfl

end

/-! What completing a call leaves alone. -/

section
variable (r : Seq) (s : State)

theorem advance_params : (advance r s).params = s.params := by
  rw [advance_eq]; split <;> simp

theorem advance_text : (advance r s).text = s.text := by
  rw [advance_eq]; split <;> simp [proceed_text]

theorem advance_inbox : (advance r s).inbox = s.inbox := by
  rw [advance_eq]; split <;> simp [proceed_inbox]

theorem advance_raced : (advance r s).raced = s.raced := by
  rw [advance_eq]; split <;> simp [proceed_raced]

end

/-! The event trace (00_scope.md R11): only an answered call adds to it. -/

theorem eventTrace_append_event {s t : State} {e : Event} (h : t.log = s.log ++ [.event e]) :
    t.eventTrace = s.eventTrace ++ [e] := by
  rw [State.eventTrace, h, List.filterMap_append, State.eventTrace]
  rfl

theorem eventTrace_append_other {s t : State} {e : Entry} (h : t.log = s.log ++ [e]) (he : e.event? = none) :
    t.eventTrace = s.eventTrace := by
  rw [State.eventTrace, h, List.filterMap_append, List.filterMap_cons_none he]
  simp [State.eventTrace]

theorem eventTrace_of_log_eq {s t : State} (h : t.log = s.log) : t.eventTrace = s.eventTrace := by
  rw [State.eventTrace, h, State.eventTrace]

theorem proceed_eventTrace (c : Instr) (k : List Micro) (s : State) : (proceed c k s).eventTrace = s.eventTrace := by
  rcases proceed_log c k s with h | ⟨e, h⟩
  · exact eventTrace_of_log_eq h
  · exact eventTrace_append_other h rfl

theorem raise_eventTrace (c : Instr) (e : ErrCode) (s : State) : (raise c e s).eventTrace = s.eventTrace :=
  eventTrace_append_other (raise_log c e s) rfl

theorem advance_eventTrace (r : Seq) (s : State) :
    (advance r s).eventTrace = s.eventTrace ++ [s.answerEvent r.call] := by
  have hcall := eventTrace_append_event (afterCall_log s r.call)
  rw [advance_eq]
  split
  · rw [raise_eventTrace, hcall]
  · rw [proceed_eventTrace, hcall]

/-! Accepting a command. -/

/-- The pseudocode of a command (41_init.md R151, 42_display_ops.md R171 to R176, 43_control_ops.md R200, R202). -/
def program (p : Params) : Instr → List Micro
  | .init => initProgram p
  | .clear => clearProgram p
  | .printc ch => printcProgram p ch
  | .prints addr => printsProgram p addr
  | .setcur row col => setcurProgram p row col
  | .curon => curonProgram p
  | .curoff => curoffProgram p
  | .setbl v => [.setBl v]
  | .reserved _ => [.illegal]

theorem exec_eq_start (i : Instr) (s : State) : exec i s = start i (program s.params i) s := by
  cases i <;> rfl

/-- The state from which an accepted command runs its pseudocode (43_control_ops.md R203). -/
def State.accept (s : State) (i : Instr) : State := { s.record (.accepted i) with busy := true, raced := [] }

theorem exec_of_idle {s : State} (i : Instr) (hv : s.params.valid = true) (hb : s.busy = false) :
    exec i s = .next (proceed i (program s.params i) (s.accept i)) :=
  (exec_eq_start i s).trans (start_of_idle i _ hv hb)

theorem exec_eq_next {i : Instr} {s t : State} (h : exec i s = .next t) :
    t = proceed i (program s.params i) (s.accept i) :=
  start_eq_next ((exec_eq_start i s).symm.trans h)

theorem exec_of_busy {s : State} (i : Instr) (hv : s.params.valid = true) (hb : s.busy = true) :
    exec i s = .refused .portBusy := by
  rw [exec_eq_start]
  simp [start, hv, hb]

theorem exec_of_invalid {s : State} (i : Instr) (hv : s.params.valid = false) : exec i s = .refused .badParameters := by
  rw [exec_eq_start]
  simp [start, hv]

theorem accept_eventTrace (s : State) (i : Instr) : (s.accept i).eventTrace = s.eventTrace :=
  eventTrace_append_other (e := .accepted i) rfl rfl

theorem exec_eventTrace {i : Instr} {s t : State} (h : exec i s = .next t) : t.eventTrace = s.eventTrace := by
  rw [exec_eq_next h, proceed_eventTrace, accept_eventTrace]

/-! The cases of a step. -/

/-- What one step from `s` can be: the idle block waits, the call in progress completes, a word offered to the idle block is
executed, or the host reads the status, writes a text byte or resets the block. `rest` is what the host does after it. -/
inductive StepCase (s : State) : State → Prop
  | waits (rest : List HostAction) (hb : s.busy = false) : StepCase s { s with inbox := rest }
  | completes (rest : List HostAction) {r : Seq} (hb : s.busy = true) (hs : s.seq = some r) :
      StepCase s (advance r { s with inbox := rest })
  | accepts {w : Word} {rest : List HostAction} {t : State} (hi : s.inbox = .command w :: rest) (hb : s.busy = false)
      (h : exec (decode w) { s with inbox := rest } = .next t) : StepCase s t
  | readsStatus {rest : List HostAction} (hi : s.inbox = .readStatus :: rest) :
      StepCase s (readStatusPort { s with inbox := rest })
  | writesText {a : TextAddr} {b : Byte} {rest : List HostAction} (hi : s.inbox = .writeText a b :: rest) :
      StepCase s (hostWritesText a b { s with inbox := rest })
  | resets {rest : List HostAction} (hi : s.inbox = .reset :: rest) : StepCase s (resetBlock { s with inbox := rest })

theorem stepCase_of_blockStep {s t : State} (rest : List HostAction) (h : blockStep { s with inbox := rest } = .next t) :
    StepCase s t := by
  simp only [blockStep] at h
  split at h
  case h_1 hb => exact Host.Outcome.next.inj h ▸ .waits rest hb
  case h_2 hb hs => exact Host.Outcome.next.inj h ▸ .completes rest hb hs
  case h_3 => cases h

theorem valid_of_step {s t : State} (h : step s = .next t) : s.params.valid = true := by
  unfold step at h
  split at h
  · cases h
  · simp_all

theorem step_cases {s t : State} (h : step s = .next t) : StepCase s t := by
  have hv := valid_of_step h
  simp only [step, hv, Bool.not_true, Bool.false_eq_true, if_false] at h
  split at h
  case h_1 => exact stepCase_of_blockStep s.inbox h
  case h_2 w rest hi =>
    split at h
    · exact stepCase_of_blockStep s.inbox h
    · next hb => exact .accepts hi (Bool.not_eq_true _ ▸ hb) h
  case h_3 rest hi => exact Host.Outcome.next.inj h ▸ .readsStatus hi
  case h_4 a b rest hi => exact Host.Outcome.next.inj h ▸ .writesText hi
  case h_5 rest hi => exact Host.Outcome.next.inj h ▸ .resets hi
  case h_6 rest hi => exact stepCase_of_blockStep rest h

end Sys2Proof.Machine
end

section
/-! SUPPORT. What every step leaves alone, and what the host's actions do (spec/00_scope.md R10, R14; spec/43_control_ops.md R203,
R204; spec/70_reset_and_hazards.md R260 to R263). -/

namespace Sys2Proof.Machine

theorem exec_params {i : Instr} {s t : State} (h : exec i s = .next t) : t.params = s.params := by
  rw [exec_eq_next h, proceed_params]; rfl

theorem exec_text {i : Instr} {s t : State} (h : exec i s = .next t) : t.text = s.text := by
  rw [exec_eq_next h, proceed_text]; rfl

theorem exec_faulted {i : Instr} {s t : State} (h : exec i s = .next t) : t.faulted = s.faulted := by
  rw [exec_eq_next h, proceed_faulted]; rfl

theorem exec_raced {i : Instr} {s t : State} (h : exec i s = .next t) : t.raced = [] := by
  rw [exec_eq_next h, proceed_raced]; rfl

theorem step_params {s t : State} (h : step s = .next t) : t.params = s.params := by
  cases step_cases h with
  | completes rest hb hs => exact advance_params _ _
  | accepts hi hb h => exact (exec_params h :)
  | waits | readsStatus | writesText | resets => rfl

/-- Settles O20: `step` and `start`, which every command goes through, test the parameters first; and no case of a step
writes them. -/
theorem illegalParametersAreRefused : Obligations.IllegalParametersAreRefused :=
  ⟨fun s hv => ⟨by simp [step, hv], fun i => exec_of_invalid i hv⟩, fun _ _ => step_params⟩

/-- Settles O21: the word on the idle port is executed; the fetch of a program's word is one such offer; and a busy block
that is left alone completes its call. -/
theorem stepRunsTheDecodedCommand : Obligations.StepRunsTheDecodedCommand := by
  refine ⟨fun s w rest => step_command_of_idle, fun s w hv => ?fetch, fun s r hv hb hs hi => step_advance hv hi hb hs⟩
  case fetch =>
    have hinbox : (s.withFetchWord 16 w.toNat).inbox = .command w :: s.inbox := by
      simp only [State.withFetchWord, Nat.mod_eq_of_lt w.isLt, BitVec.ofNat_toNat, BitVec.setWidth_eq]
    exact step_command_of_idle hv rfl hinbox

theorem step_command_of_busy {s : State} {w : Word} {rest : List HostAction} (hv : s.params.valid = true)
    (hb : s.busy = true) (hi : s.inbox = .command w :: rest) : step s = blockStep s := by
  simp [step, hv, hb, hi]

theorem blockStep_inbox {s t : State} (h : blockStep s = .next t) : t.inbox = s.inbox := by
  unfold blockStep at h
  split at h
  · exact Host.Outcome.next.inj h ▸ rfl
  · exact Host.Outcome.next.inj h ▸ advance_inbox _ _
  · cases h

/-- Settles O22: the offer to a busy block is not taken from the host's list, and the block completes its own call. -/
theorem busyPortAcceptsNoWord : Obligations.BusyPortAcceptsNoWord := by
  refine ⟨fun s t w rest hv hb hi h => ?_, fun s i => exec_of_busy i⟩
  rw [step_command_of_busy hv hb hi] at h
  exact ⟨h, (blockStep_inbox h).trans hi⟩

theorem step_reset {s : State} {rest : List HostAction} (hv : s.params.valid = true)
    (hi : s.inbox = .reset :: rest) : step s = .next (resetBlock { s with inbox := rest }) := by
  simp [step, hv, hi]

theorem advance_faulted_of_faulted (r : Seq) {s : State} (hf : s.faulted = true) : (advance r s).faulted = true := by
  rw [advance_eq]
  split
  · simp [hf]
  · rw [proceed_faulted, afterCall_faulted, hf]

/-- Settles O8: the reset's own assignments; and of the other cases of a step none writes 0 to `S.faulted`. -/
theorem resetSetsRegistersAndAloneClearsFaulted : Obligations.ResetSetsRegistersAndAloneClearsFaulted := by
  refine ⟨fun s rest hv hi => ⟨_, step_reset hv hi, rfl, rfl, rfl, rfl, rfl, rfl, rfl⟩, fun s t h hs ht => ?_⟩
  have hne : t.faulted ≠ s.faulted := by simp [hs, ht]
  cases step_cases h with
  | resets hi => exact ⟨_, hi⟩
  | completes rest hb hq => exact absurd ((advance_faulted_of_faulted _ (s := { s with inbox := rest }) hs).trans hs.symm) hne
  | accepts hi hb h => exact absurd (exec_faulted h :) hne
  | waits | readsStatus | writesText => exact absurd rfl hne

/-- Settles O9: the reset records its mark, which is no event, and forgets what it knew of the expander and the LCD. -/
theorem resetIssuesNothingAndSparesTheRest : Obligations.ResetIssuesNothingAndSparesTheRest := fun s rest hv hi =>
  ⟨resetBlock { s with inbox := rest }, step_reset hv hi,
    eventTrace_append_other (s := s) (resetBlock_log { s with inbox := rest }) rfl,
    rfl, rfl, rfl, rfl, rfl, rfl, rfl, rfl, rfl, fun _ => rfl, rfl⟩

/-- Settles O23: of the cases of a step only a completed call adds an event. -/
theorem oneEventPerStep : Obligations.OneEventPerStep := by
  intro s t h
  cases step_cases h with
  | completes rest hb hs =>
    rename_i r
    refine .inr ⟨r, s.answerEvent r.call, hb, hs, advance_eventTrace r { s with inbox := rest }, ?_⟩
    cases r.call <;> rfl
  | accepts hi hb h => exact .inl (exec_eventTrace h :)
  | readsStatus hi => exact .inl (eventTrace_readStatusPort _)
  | resets hi => exact .inl (eventTrace_append_other (resetBlock_log _) rfl)
  | waits | writesText => exact .inl rfl

/-- Settles O50: the step of one block replaces that block's state in the list and no other. -/
theorem instancesAreIndependent : Obligations.InstancesAreIndependent := by
  intro k bs cs h
  unfold stepInstance at h
  cases hk : bs[k]? with
  | none =>
    simp only [hk] at h
    obtain rfl := Host.Outcome.next.inj h
    exact ⟨fun _ _ => rfl, fun s hs => by cases hs⟩
  | some s =>
    cases hs : step s with
    | next t =>
      simp only [hk, hs] at h
      obtain rfl := Host.Outcome.next.inj h
      have hlt : k < bs.length := (List.getElem?_eq_some_iff.mp hk).1
      refine ⟨fun j hj => List.getElem?_set_ne hj.symm, fun s' hs' => ?_⟩
      obtain rfl := Option.some.inj hs'
      exact ⟨t, hs, List.getElem?_set_self hlt⟩
    | fault r => simp [hk, hs] at h
    | refused r => simp [hk, hs] at h

end Sys2Proof.Machine
end

section
/-! SUPPORT. Commands that issue no call: SETBL, and the commands that their own checks reject (spec/43_control_ops.md R200,
R202; spec/42_display_ops.md R170, R174; spec/60_exceptions.md R228). -/

namespace Sys2Proof.Machine

/-- Settles O6: its pseudocode raises at once. -/
theorem reservedCompletes : Obligations.ReservedCompletes := fun _ w => exec_reserved_of_idle w

/-- Settles O24: the pseudocode is one assignment, and the response is no event. -/
theorem setblSetsTheBacklightBit : Obligations.SetblSetsTheBacklightBit := by
  refine ⟨fun s v hv hb => ?run, by decide, by decide, fun s v => ?trace⟩
  case run =>
    rw [exec_of_idle (.setbl v) hv hb]
    simp [program, proceed, respondOk, answeredAtOnce, State.accept, Instr.isInit, hb]
  case trace =>
    simp [State.eventTrace, answeredAtOnce, Entry.event?]

/-- The pseudocode of a display command starts with the gate (42_display_ops.md R170). -/
theorem program_of_isDisplay {i : Instr} (hi : i.isDisplay = true) (p : Params) :
    i.isInit = false ∧ ∃ k, k.all Micro.inDisplay = true ∧ program p i = .gateReady :: k := by
  cases i with
  | clear => exact ⟨rfl, _, allD_msg p p.clrLcd .command, rfl⟩
  | printc ch => exact ⟨rfl, _, allD_msg p ch .data, rfl⟩
  | prints addr => exact ⟨rfl, _, by simp [allD_msg, Micro.inDisplay], rfl⟩
  | setcur row col => exact ⟨rfl, .checkColumn col :: sendMessage p (cursorByte p row col) .command,
      allD_msg p (cursorByte p row col) .command, rfl⟩
  | curon => exact ⟨rfl, _, allD_msg p (cursorOnByte p) .command, rfl⟩
  | curoff => exact ⟨rfl, _, allD_msg p (cursorOffByte p) .command, rfl⟩
  | init | setbl v | reserved w => cases hi

theorem gate_closed {s : State} (h : gateCloses s = true) (c : Instr) (k : List Micro) :
    proceed c (.gateReady :: k) s = raise c .notInitialized s :=
  if_pos h

theorem column_out {s : State} {col : Byte} (h : columnOut s.params col = true) (c : Instr) (k : List Micro) :
    proceed c (.checkColumn col :: k) s = raise c .outOfRange s :=
  if_pos h

theorem column_in {s : State} {col : Byte} (h : columnOut s.params col = false) (c : Instr) (k : List Micro) :
    proceed c (.checkColumn col :: k) s = proceed c k s :=
  if_neg (by rw [← Bool.not_eq_true] at h; exact h)

/-- Settles O25: the gate is the first line of the command's pseudocode. -/
theorem gateRejectsDisplayCommands : Obligations.GateRejectsDisplayCommands := by
  refine fun s i hv hb hi hreq hph => ⟨?_, rfl⟩
  obtain ⟨hc, k, -, hk⟩ := program_of_isDisplay hi s.params
  have hgate : gateCloses (s.accept i) = true := by
    show (s.params.requireReady && s.phase != .ready) = true
    simp [hreq, hph]
  rw [exec_of_idle i hv hb, hk, gate_closed hgate]
  exact congrArg _ (raise_accepted hc rfl hb)

/-- Settles O26: behind the gate the bounds test is the next line. -/
theorem setcurRejectsColumnOutOfRange : Obligations.SetcurRejectsColumnOutOfRange := by
  refine fun s row col hv hb hgate hcheck hcol => ⟨?_, rfl⟩
  have hout : columnOut (s.accept (.setcur row col)).params col = true := by
    show (s.params.checkBounds && decide (s.params.numColumns ≤ col.toNat)) = true
    simp [hcheck, hcol]
  rw [exec_of_idle _ hv hb, program, setcurProgram, gate_open (s := s.accept _) hgate, column_out hout]
  exact congrArg _ (raise_accepted rfl rfl hb)

end Sys2Proof.Machine
end

section
/-! SUPPORT. The registers (spec/10_state.md R33, R40, R46) and the invariant of Safety.lean (R37 to R39, R47, R48): it holds at
reset, every step keeps it, and from it every step goes on. -/

namespace Sys2Proof.Machine

theorem step_writeText {s : State} {a : TextAddr} {b : Byte} {rest : List HostAction} (hv : s.params.valid = true)
    (hi : s.inbox = .writeText a b :: rest) : step s = .next (hostWritesText a b { s with inbox := rest }) := by
  simp [step, hv, hi]

theorem step_hostQuiet {s : State} {rest : List HostAction} (hv : s.params.valid = true)
    (hi : s.inbox = .quiet :: rest) : step s = blockStep { s with inbox := rest } := by
  simp [step, hv, hi]

/-- Settles O7: a closed state, each field as it stands. -/
theorem stateAfterPowerOn : Obligations.StateAfterPowerOn := by
  unfold Obligations.StateAfterPowerOn
  decide

/-- Settles O10: the record is empty, the phase UNINIT, and no call is in progress. -/
theorem invariantsHoldAtReset : Obligations.InvariantsHoldAtReset :=
  ⟨⟨by decide, rfl, rfl, rfl, rfl, rfl⟩, trivial⟩

theorem phaseSettled_of_idle {s : State} (hi : Inv s) (hb : s.busy = false) : PhaseSettled s := by
  obtain ⟨-, -, -, -, hq⟩ := hi
  unfold SequencerInv at hq
  split at hq
  · simp [hb] at hq
  · exact hq.2

/-- Settles O14: an idle block's phase is settled, which leaves one phase for each end of the last INIT. -/
theorem phaseAndFaultedBetweenCommands : Obligations.PhaseAndFaultedBetweenCommands := by
  refine fun s hi => ⟨fun hb => ?phase, fun hf => ?faulted⟩
  case phase =>
    have hp := phaseSettled_of_idle hi hb
    unfold PhaseSettled at hp
    cases hst : initStatus s.log <;> simp_all
  case faulted =>
    obtain ⟨-, -, hf', -⟩ := hi
    rw [← hf', hf]

/-- Bits above the low part of a word are bits of its high part. -/
theorem getLsbD_append_high {m n k : Nat} (x : BitVec m) (y : BitVec n) (h : n ≤ k) :
    (x ++ y).getLsbD k = x.getLsbD (k - n) := by
  rw [BitVec.getLsbD_append, if_neg (by omega)]

theorem getLsbD_append_ofBool {m : Nat} (x : BitVec m) (b : Bool) : (x ++ BitVec.ofBool b).getLsbD 0 = b := by
  rw [BitVec.getLsbD_append, if_pos (by decide)]
  cases b <;> rfl

/-! The fields of the status word (10_state.md R40): each is what is left when the fields below it are taken off. -/

theorem statusWord_phase (s : State) : s.statusWord.extractLsb' 0 3 = s.phase.code :=
  BitVec.extractLsb'_append_eq_right

theorem statusWord_faulted (s : State) : s.statusWord.getLsbD 3 = s.faulted := by
  rw [State.statusWord, getLsbD_append_high _ _ (by decide)]
  exact getLsbD_append_ofBool _ _

theorem statusWord_bl (s : State) : s.statusWord.getLsbD 4 = s.bl := by
  rw [State.statusWord, getLsbD_append_high _ _ (by decide), getLsbD_append_high _ _ (by decide)]
  exact getLsbD_append_ofBool _ _

theorem statusWord_busy (s : State) : s.statusWord.getLsbD 5 = s.busy := by
  rw [State.statusWord, getLsbD_append_high _ _ (by decide), getLsbD_append_high _ _ (by decide),
    getLsbD_append_high _ _ (by decide)]
  exact getLsbD_append_ofBool _ _

/-- Everything above the phase and the three flags. -/
theorem statusWord_high (s : State) (start len : Nat) (h : 6 ≤ start) : s.statusWord.extractLsb' start len
    = (0#4 ++ BitVec.ofNat 3 s.cfgIdx.val ++ s.lastErr.code).extractLsb' (start - 6) len := by
  rw [State.statusWord, BitVec.extractLsb'_append_eq_of_le (by omega), BitVec.extractLsb'_append_eq_of_le (by omega),
    BitVec.extractLsb'_append_eq_of_le (by omega), BitVec.extractLsb'_append_eq_of_le (by omega)]
  congr 1

theorem statusWord_lastErr (s : State) : s.statusWord.extractLsb' 6 3 = s.lastErr.code :=
  (statusWord_high s 6 3 (by decide)).trans BitVec.extractLsb'_append_eq_right

theorem statusWord_cfgIdx (s : State) : (s.statusWord.extractLsb' 9 3).toNat = s.cfgIdx.val := by
  rw [statusWord_high s 9 3 (by decide), BitVec.extractLsb'_append_eq_of_le (by decide)]
  have hfield : (0#4 ++ BitVec.ofNat 3 s.cfgIdx.val).extractLsb' 0 3 = BitVec.ofNat 3 s.cfgIdx.val :=
    BitVec.extractLsb'_append_eq_right
  exact (congrArg BitVec.toNat hfield).trans (Nat.mod_eq_of_lt (by omega))

theorem statusWord_reserved (s : State) : s.statusWord.extractLsb' 12 4 = 0 := by
  rw [statusWord_high s 12 4 (by decide), BitVec.extractLsb'_append_eq_of_le (by decide)]
  exact BitVec.extractLsb'_append_eq_left

theorem code_ne_seven (p : Phase) : p.code ≠ 7 := by cases p <;> decide

/-- Settles O15: field by field; code 7 is the code of no phase. -/
theorem statusWordFields : Obligations.StatusWordFields := fun s =>
  ⟨statusWord_phase s, statusWord_faulted s, statusWord_bl s, statusWord_busy s, statusWord_lastErr s, statusWord_cfgIdx s,
    statusWord_reserved s, rfl, rfl, rfl, rfl, rfl, rfl, rfl, statusWord_phase s ▸ code_ne_seven s.phase⟩

/-- The invariant does not speak of the host's list. -/
theorem inv_inbox {s : State} (hi : Inv s) (rest : List HostAction) : Inv { s with inbox := rest } := hi

/-- What the invariant of the sequencer reads. -/
theorem sequencerInv_of {s t : State} (h : SequencerInv s) (hseq : t.seq = s.seq) (hbusy : t.busy = s.busy)
    (hst : initStatus t.log = initStatus s.log) (hph : t.phase = s.phase) (hcfg : t.cfgIdx = s.cfgIdx) : SequencerInv t := by
  unfold SequencerInv at h ⊢
  rw [hseq]
  split at h
  · obtain ⟨hb, hcall, hinit, hdisplay⟩ := h
    refine ⟨hbusy.trans hb, hcall, fun hc => ?_, fun hc => ?_⟩
    · rw [hst, hcfg]
      exact hinit hc
    · obtain ⟨hp, hrest⟩ := hdisplay hc
      exact ⟨settled_of s t hp hst hph hcfg, hrest⟩
  · exact ⟨hbusy.trans h.1, settled_of s t h.2 hst hph hcfg⟩

/-- A status read keeps the invariant: its entry is read as nothing. -/
theorem readStatusPort_inv {s : State} (hi : Inv s) : Inv (readStatusPort s) := by
  obtain ⟨hv, hw, hf, hl, hq⟩ := hi
  refine ⟨hv, hw, ?_, ?_, sequencerInv_of hq rfl rfl ?_ rfl rfl⟩
  · simp [failed_append, failedStep, hf]
  · simp [lastResponse_append, responseStep, hl]
  · simp [initStatus_append, initStep]

/-- A host write keeps the invariant: it keeps the memory's form. -/
theorem hostWritesText_inv {s : State} (hi : Inv s) (a : TextAddr) (b : Byte) : Inv (hostWritesText a b s) := by
  obtain ⟨hv, hw, hf, hl, hq⟩ := hi
  exact ⟨hv, write_wf a b hw, hf, hl, sequencerInv_of hq rfl rfl rfl rfl rfl⟩

/-- A reset establishes what the invariant says of the registers: its mark starts the readings of the record afresh. -/
theorem resetBlock_inv {s : State} (hi : Inv s) : Inv (resetBlock s) := by
  obtain ⟨hv, hw, -⟩ := hi
  refine ⟨hv, hw, ?_, ?_, rfl, ?_⟩
  · simp [failed_append, failedStep]
  · simp [lastResponse_append, responseStep, ErrCode.response, ErrCode.fail, ErrCode.code]
  · simp [PhaseSettled, initStatus_append, initStep]

theorem initRest_initProgram (p : Params) (i : Fin 6) : InitRest i (initProgram p) := by
  refine ⟨?_, ?_, ?_⟩ <;>
    simp [initProgram, bootStep, configStep, sendNibble, sendMessage, Micro.inInit, lastCfg]

/-- Accepting any command keeps the invariant. -/
theorem exec_inv {i : Instr} {s t : State} (hi : Inv s) (h : exec i s = .next t) : Inv t := by
  rw [exec_eq_start] at h
  by_cases hd : i.isDisplay = true
  · obtain ⟨hc, k, hk, hprog⟩ := program_of_isDisplay hd s.params
    exact start_display_inv hi h hc (by rw [hprog]; exact hk)
  · refine start_inv hi h fun hb hp => ?_
    obtain ⟨-, -, -, hr, -⟩ := hi
    cases i with
    | init =>
      obtain ⟨hseq, hlast, hfail⟩ := proceed_init_inv .init (initProgram s.params) (s.accept .init) rfl
        (.inl (initRest_initProgram s.params s.cfgIdx)) (by simp [State.accept, initStatus_append, initStep, Instr.isInit])
        (by simp [State.accept, lastResponse_append, responseStep, hr]) rfl
      exact ⟨hseq, hlast, hfail.trans (by simp [State.accept, failed_append, failedStep])⟩
    | setbl v =>
      have hset : PhaseSettled (respondOk (.setbl v) { s.accept (.setbl v) with bl := v }) :=
        settled_of s _ hp (by simp [State.accept, initStatus, initStep, Instr.isInit]) rfl rfl
      refine ⟨⟨rfl, hset⟩, ?_, ?_⟩
      · simp [program, proceed, lastResponse, responseStep]
      · simp [program, proceed, failedSinceReset, failedStep]
    | reserved w =>
      have hset : PhaseSettled (s.accept (.reserved w)) :=
        settled_of s _ hp (by simp [State.accept, initStatus_append, initStep, Instr.isInit]) rfl rfl
      refine ⟨raise_display_inv (.reserved w) .illegalCommand _ rfl hset, ?_, ?_⟩
      · simp [program, proceed, lastResponse, responseStep]
      · simp [program, proceed, failedSinceReset, failedStep]
    | clear | printc ch | prints addr | setcur row col | curon | curoff => exact absurd rfl hd

/-- Settles O11: case by case of a step, with the model's own lemmas for a completed call and for an accepted command. -/
theorem everyStepKeepsTheInvariant : Obligations.EveryStepKeepsTheInvariant := by
  intro s t hi h
  cases step_cases h with
  | waits rest hb => exact inv_inbox hi rest
  | completes rest hb hs => exact advance_inv _ _ (inv_inbox hi rest) hs
  | accepts hbox hb h => exact exec_inv (inv_inbox hi _) h
  | readsStatus hbox => exact readStatusPort_inv (inv_inbox hi _)
  | writesText hbox => exact hostWritesText_inv (inv_inbox hi _) _ _
  | resets hbox => exact resetBlock_inv (inv_inbox hi _)

/-- Under the invariant a busy block holds the command that keeps it busy. -/
theorem blockStep_goesOn {s : State} (hi : Inv s) : ∃ t, blockStep s = .next t := by
  obtain ⟨-, -, -, -, hq⟩ := hi
  unfold SequencerInv at hq
  split at hq
  · next r hs => exact ⟨advance r s, by simp [blockStep, hq.1, hs]⟩
  · exact ⟨s, by simp [blockStep, hq.1]⟩

/-- Settles O13: the host's own actions always succeed, an idle block accepts every word, and a busy one holds a command. -/
theorem everyStepGoesOn : Obligations.EveryStepGoesOn := by
  intro s hi
  obtain ⟨hv, -⟩ := id hi
  cases hbox : s.inbox with
  | nil => exact step_quiet hv hbox ▸ blockStep_goesOn hi
  | cons action rest =>
    cases action with
    | command w =>
      cases hb : s.busy with
      | false => exact ⟨_, (step_command_of_idle hv hb hbox).trans (exec_of_idle _ hv hb)⟩
      | true => exact step_command_of_busy hv hb hbox ▸ blockStep_goesOn hi
    | readStatus => exact ⟨_, step_readStatus hv hbox⟩
    | writeText a b => exact ⟨_, step_writeText hv hbox⟩
    | reset => exact ⟨_, step_reset hv hbox⟩
    | quiet => exact step_hostQuiet hv hbox ▸ blockStep_goesOn (inv_inbox hi rest)

/-! Who writes `S.bl`, `S.phase` and `S.cfg_idx`. -/

theorem setBl_not_mem_of_init {i : Fin 6} {k : List Micro} (h : InitRest i k) (v : Bool) : .setBl v ∉ k := fun hv => by
  obtain ⟨hk, -⟩ := h
  exact Bool.false_ne_true (List.all_eq_true.mp hk _ hv)

/-- Under the invariant no pseudocode in progress sets the backlight. -/
theorem advance_bl {r : Seq} {s : State} (hi : Inv s) (hs : s.seq = some r) : (advance r s).bl = s.bl := by
  obtain ⟨-, -, -, -, hq⟩ := hi
  simp only [SequencerInv, hs] at hq
  obtain ⟨-, -, hinit, hdisplay⟩ := hq
  have hrest : ∀ v, Micro.setBl v ∉ r.rest := by
    cases hc : r.cmd.isInit with
    | true =>
      obtain ⟨-, hk, -⟩ := hinit hc
      exact setBl_not_mem_of_init hk
    | false =>
      obtain ⟨-, hk, -⟩ := hdisplay hc
      exact setBl_not_mem_of_display hk
  have hon : ∀ v, Micro.setBl v ∉ r.goesOn s := by
    intro v
    have := hrest v
    unfold Seq.goesOn
    split
    · split <;> simp [sendMessage, sendNibble, this]
    all_goals exact this
  rw [advance_eq]
  split
  · simp
  · rw [proceed_bl _ _ _ hon, afterCall_bl]

theorem isInit_iff (i : Instr) : i.isInit = true ↔ i = .init := by cases i <;> simp [Instr.isInit]

/-- Under the invariant only INIT's pseudocode writes the phase and the index. -/
theorem advance_phase_cfgIdx {r : Seq} {s : State} (hi : Inv s) (hs : s.seq = some r) (hc : r.cmd.isInit = false) :
    (advance r s).phase = s.phase ∧ (advance r s).cfgIdx = s.cfgIdx := by
  obtain ⟨-, -, -, -, hq⟩ := hi
  simp only [SequencerInv, hs] at hq
  obtain ⟨-, -, -, hdisplay⟩ := hq
  obtain ⟨-, hrest, -⟩ := hdisplay hc
  obtain ⟨s', hsame, -, ⟨k, hk, heq⟩ | ⟨kind, -, heq⟩⟩ := advance_display_cases ⟨hc, hrest⟩ s
  · have h := hsame.trans (proceed_sameRegisters hc hk)
    exact heq ▸ ⟨h.phase, h.cfgIdx⟩
  · rw [heq]
    exact ⟨by simp [hc, hsame.phase], hsame.cfgIdx⟩

/-- The registers an accepted command may write at once: SETBL its bit, INIT the phase and the index, and no other any. -/
theorem exec_registers {i : Instr} {s t : State} (h : exec i s = .next t) :
    (t.bl = s.bl ∨ i = .setbl t.bl) ∧ (i = .init ∨ (t.phase = s.phase ∧ t.cfgIdx = s.cfgIdx)) := by
  rw [exec_eq_next h]
  by_cases hd : i.isDisplay = true
  · obtain ⟨hc, k, hk, hprog⟩ := program_of_isDisplay hd s.params
    have hsame : SameRegisters (s.accept i) (proceed i (program s.params i) (s.accept i)) :=
      proceed_sameRegisters hc (by rw [hprog]; exact hk)
    exact ⟨.inl hsame.bl, .inr ⟨hsame.phase, hsame.cfgIdx⟩⟩
  · cases i with
    | init => exact ⟨.inl rfl, .inl rfl⟩
    | setbl v => exact ⟨.inr rfl, .inr ⟨rfl, rfl⟩⟩
    | reserved w => exact ⟨.inl rfl, .inr ⟨rfl, rfl⟩⟩
    | clear | printc ch | prints addr | setcur row col | curon | curoff => exact absurd rfl hd

/-- A host write changes the byte at its own address only, and there to the byte it writes. -/
theorem read_write_changed {m : Memory} {a x : TextAddr} {b : Byte} (hw : m.wf = true)
    (hne : (m.write a b).read x ≠ m.read x) : x = a ∧ (m.write a b).read x = b := by
  have hx : x = a := by
    by_contra hx
    exact hne (read_write_other hx)
  exact ⟨hx, hx ▸ read_write_same hw⟩

/-- Settles O47: the cases of a step one by one; of the pseudocodes in progress the invariant says which registers they may
write. -/
theorem everyRegisterHasItsWriters : Obligations.EveryRegisterHasItsWriters := by
  intro s t hi h
  have hparams := step_params h
  cases step_cases h with
  | completes rest hb hs =>
    rename_i r
    have hi' := inv_inbox hi rest
    refine ⟨fun hne => absurd (advance_bl hi' hs) hne, fun hne => .inr (.inr ⟨r, hs, ?_⟩), fun a hne => ?_, hparams⟩
    · by_contra hc
      obtain ⟨hph, hcfg⟩ := advance_phase_cfgIdx hi' hs (by rw [← Bool.not_eq_true, isInit_iff]; exact hc)
      exact hne.elim (· hph) (· hcfg)
    · exact absurd (by rw [advance_text]) hne
  | accepts hbox hb h =>
    obtain ⟨hbl, hph⟩ := exec_registers h
    refine ⟨fun hne => .inr ⟨_, _, _, hbox, hb, hbl.resolve_left hne, rfl⟩, fun hne => .inr (.inl ⟨_, _, hbox, hb, ?_⟩),
      fun a hne => absurd (by rw [exec_text h]) hne, hparams⟩
    exact hph.resolve_right fun ⟨h1, h2⟩ => hne.elim (· h1) (· h2)
  | writesText hbox =>
    refine ⟨fun hne => absurd rfl hne, fun hne => hne.elim (absurd rfl) (absurd rfl), fun x hne => ?_, hparams⟩
    obtain ⟨-, hw, -⟩ := hi
    obtain ⟨rfl, hb⟩ := read_write_changed hw hne
    exact ⟨_, hb.symm ▸ hbox⟩
  | resets hbox => exact ⟨fun _ => .inl ⟨_, hbox⟩, fun _ => .inl ⟨_, hbox⟩, fun a hne => absurd rfl hne, hparams⟩
  | waits | readsStatus =>
    exact ⟨fun hne => absurd rfl hne, fun hne => hne.elim (absurd rfl) (absurd rfl), fun a hne => absurd rfl hne, hparams⟩

end Sys2Proof.Machine
end

section
/-! SUPPORT. The expander byte under legal parameters (spec/30_encoding.md R95, R97, R98), the enable pulse (spec/40_encoder.md
R131), and what one answered write does to the expander (spec/10_state.md R44, spec/70_reset_and_hazards.md R268). -/

namespace Sys2Proof.Machine

theorem rsAllowed_rsValue {p : Params} (hv : p.valid = true) (rs : RegSelect) : p.rsAllowed (p.rsValue rs) = true := by
  obtain ⟨-, -, -, -, hdata, hcmd, -⟩ := valid_cases hv
  cases rs
  · exact hcmd
  · exact hdata

/-! The backlight bit is on its own line, below the payload. -/

theorem backlight_getLsbD (bl : Bool) {b k : Nat} (hb : b < 4) (hk : k < 4) :
    ((BitVec.ofBool bl).setWidth 8 <<< b).getLsbD k = (decide (k = b) && bl) := by
  have h : ∀ bl : Bool, ∀ b < 4, ∀ k < 4, ((BitVec.ofBool bl).setWidth 8 <<< b).getLsbD k = (decide (k = b) && bl) := by
    decide
  exact h bl b hb k hk

theorem backlight_payload (bl : Bool) {b : Nat} (hb : b < 4) :
    ((BitVec.ofBool bl).setWidth 8 <<< b).extractLsb' 4 4 = 0 := by
  have h : ∀ bl : Bool, ∀ b < 4, ((BitVec.ofBool bl).setWidth 8 <<< b).extractLsb' 4 4 = 0 := by decide
  exact h bl b hb

/-- A control line below the payload: the register-select's, or the backlight's on its own line. -/
theorem nib_getLsbD_line {p : Params} (hv : p.valid = true) (bl : Bool) (n : Nibble) (rs : RegSelect) {k : Nat} (hk : k < 4) :
    (nib p bl n rs).getLsbD k = ((p.rsValue rs).getLsbD k || (decide (k = p.blPos) && bl)) := by
  obtain ⟨-, hbl, -, hshift, -⟩ := valid_cases hv
  rw [nib_getLsbD_low hshift bl n rs hk, BitVec.getLsbD_or, backlight_getLsbD bl hbl hk]

theorem nib_extractLsb'_payload {p : Params} (hv : p.valid = true) (bl : Bool) (n : Nibble) (rs : RegSelect) :
    (nib p bl n rs).extractLsb' 4 4 = n := by
  obtain ⟨-, hbl, -, hshift, -⟩ := valid_cases hv
  obtain ⟨-, -, hrs⟩ := rsAllowed_bits (rsAllowed_rsValue hv rs)
  have hn : (n ++ 0#4).extractLsb' 4 4 = n := BitVec.extractLsb'_append_eq_left
  rw [nib_eq_append_or hshift, BitVec.extractLsb'_or, BitVec.extractLsb'_or, hrs, backlight_payload bl hbl, hn]
  simp

theorem enableSet_nib {p : Params} (hv : p.valid = true) (bl : Bool) (n : Nibble) (rs : RegSelect) :
    enableSet p (nib p bl n rs) = false := by
  obtain ⟨hen, -, hne, -⟩ := valid_cases hv
  obtain ⟨hrs, -⟩ := rsAllowed_bits (rsAllowed_rsValue hv rs)
  rw [enableSet, nib_getLsbD_line hv bl n rs hen, hrs]
  simp [hne]

theorem enableSet_raised {p : Params} (hv : p.valid = true) (v : Byte) : enableSet p (raised p v) = true := by
  obtain ⟨hen, -⟩ := valid_cases hv
  rw [enableSet, raised, Params.enMask, ← BitVec.twoPow_eq, BitVec.getLsbD_or, BitVec.getLsbD_twoPow]
  simp; omega

/-- Settles O18: bit by bit, each line belongs to one field. -/
theorem expanderByteFieldsAreDisjoint : Obligations.ExpanderByteFieldsAreDisjoint := by
  intro p bl n rs hv
  obtain ⟨-, hbl, -⟩ := valid_cases hv
  obtain ⟨-, hrs, -⟩ := rsAllowed_bits (rsAllowed_rsValue hv rs)
  refine ⟨nib_extractLsb'_payload hv bl n rs, ?_, fun k hk _ hne => ?_, enableSet_nib hv bl n rs, enableSet_raised hv _,
    fun k hk => raised_getLsbD_of_ne _ hk⟩
  · simp [nib_getLsbD_line hv bl n rs hbl, hrs]
  · simp [nib_getLsbD_line hv bl n rs hk, hne]

/-! The pulse (40_encoder.md R131): no command's own pseudocode holds a release write, so the only one in progress is the
one its enable write has put there. -/

/-- Pseudocode with no release write in it. -/
def NoRelease (k : List Micro) : Prop := k.all (fun m => !m.isRelease) = true

theorem noRelease_message {p : Params} {b : Byte} {rs : RegSelect} {k : List Micro} (hk : NoRelease k) :
    NoRelease (sendMessage p b rs ++ k) := by
  simpa [NoRelease, sendMessage, sendNibble, Micro.isRelease] using hk

theorem noRelease_program (p : Params) (i : Instr) : NoRelease (program p i) := by
  cases i <;> simp [NoRelease, program, initProgram, bootStep, configStep, clearProgram, printcProgram, printsProgram,
    setcurProgram, curonProgram, curoffProgram, sendMessage, sendNibble, Micro.isRelease]

theorem noRelease_goesOn {r : Seq} (s : State) (hk : NoRelease r.rest) : NoRelease (r.goesOn s) := by
  unfold Seq.goesOn
  split
  · split
    · rfl
    · exact noRelease_message hk
  all_goals exact hk

/-- Running pseudocode with no release write leaves a whole pulse in progress, or none. -/
theorem proceed_pulseInv {c : Instr} {k : List Micro} {s : State} (hv : s.params.valid = true) (hk : NoRelease k) :
    PulseInv (proceed c k s) := by
  fun_induction proceed c k s
  -- the enable write: its own release write is put in front of the rest
  case case9 n rs k s v =>
    exact .inl ⟨v, enableSet_nib hv s.bl n rs, rfl, k, rfl, hk⟩
  -- an open gate or bounds test, a delay of 0, an assignment: the rest runs on
  case case3 | case5 | case7 | case11 | case12 | case13 =>
    rename_i ih
    exact ih hv hk
  -- a call other than a write
  case case6 | case8 | case14 | case16 => exact hk
  case case10 => simp [NoRelease, Micro.isRelease] at hk
  -- the end of the command
  case case1 | case2 | case4 | case15 | case17 => trivial

/-- Completing a call keeps the pulse whole: after a delivered enable write comes its own release write, and after every
other call the pseudocode holds no release write. -/
theorem advance_pulseInv {r : Seq} {s : State} (hv : s.params.valid = true) (hs : s.seq = some r) (h : PulseInv s) :
    PulseInv (advance r s) := by
  have hv' : (s.afterCall r.call).params.valid = true := by rwa [afterCall_params]
  have hnone (hk : NoRelease r.rest) : PulseInv (proceed r.cmd (r.goesOn s) (s.afterCall r.call)) :=
    proceed_pulseInv hv' (noRelease_goesOn s hk)
  simp only [PulseInv, hs] at h
  rw [advance_eq]
  split
  · trivial
  · next hok =>
    obtain ⟨c, call, k⟩ := r
    cases call with
    | write v =>
      obtain ⟨u, hu, rfl, k', rfl, hk⟩ | ⟨-, -, hk⟩ := h
      · have hans : s.nextAnswer = true := by simpa [State.answerEvent, Event.failed] using hok
        have htrace : (afterBusWrite (raised s.params u) s.nextAnswer s).eventTrace
            = s.eventTrace ++ [.write (raised s.params u) true] := by
          rw [hans]
          exact eventTrace_append_event rfl
        exact .inr ⟨hu, htrace ▸ List.getLast?_concat, hk⟩
      · exact hnone hk
    | busInit | delay ms | read a => exact hnone h

/-- Settles O12: the record of a status read or a text write does not touch the pulse in progress, and a reset ends it. -/
theorem everyStepKeepsPulsesWhole : Obligations.EveryStepKeepsPulsesWhole := by
  intro s t hi h hstep
  have hv := valid_of_step hstep
  cases step_cases hstep with
  | completes rest hb hs => exact advance_pulseInv (s := { s with inbox := rest }) hv hs h
  | accepts hbox hb hexec =>
    rw [exec_eq_next hexec]
    exact proceed_pulseInv hv (noRelease_program _ _)
  | readsStatus hbox =>
    unfold PulseInv
    rw [eventTrace_readStatusPort]
    exact h
  | resets hbox => trivial
  | waits | writesText => exact h

/-! One write in progress, answered. -/

theorem step_write_failed {s : State} {r : Seq} {v : Byte} (hv : s.params.valid = true) (hb : s.busy = true)
    (hs : s.seq = some r) (hi : s.inbox = []) (hc : r.call = .write v) (ha : s.nextAnswer = false) :
    step s = .next (raise r.cmd .transportWriteFailed (afterBusWrite v false s)) := by
  rw [step_advance hv hi hb hs, advance_eq, hc]
  simp [State.answerEvent, Event.failed, State.afterCall, Call.failure, ha]

theorem step_write_delivered {s : State} {r : Seq} {v : Byte} (hv : s.params.valid = true) (hb : s.busy = true)
    (hs : s.seq = some r) (hi : s.inbox = []) (hc : r.call = .write v) (ha : s.nextAnswer = true) :
    step s = .next (proceed r.cmd r.rest (afterBusWrite v true s)) := by
  rw [step_advance hv hi hb hs, advance_eq, hc]
  simp [State.answerEvent, Event.failed, State.afterCall, Seq.goesOn, hc, ha]

/-- After a failed write the latch may hold the byte, and whatever it may have held (40_encoder.md R139). -/
theorem mayHold_afterWrite_false (l : Latch) (v b : Byte) :
    (l.afterWrite v false).mayHold b = true ↔ b = v ∨ l.mayHold b = true := by
  cases l <;> simp [Latch.afterWrite, Latch.mayHold]

theorem enMayBeHigh_afterWrite_false (p : Params) (l : Latch) (v : Byte) :
    (l.afterWrite v false).enMayBeHigh p = true ↔ enableSet p v = true ∨ l.enMayBeHigh p = true := by
  cases l <;> simp [Latch.afterWrite, Latch.enMayBeHigh]

theorem enMayBeLow_afterWrite_false (p : Params) (l : Latch) (v : Byte) :
    (l.afterWrite v false).enMayBeLow p = true ↔ enableSet p v = false ∨ l.enMayBeLow p = true := by
  cases l <;> simp [Latch.afterWrite, Latch.enMayBeLow]

/-- Settles O37: the write's effect and then `raise`. -/
theorem failedWriteEndsTheCommand : Obligations.FailedWriteEndsTheCommand := by
  intro s r v hv hb hs hi hc ha
  have hresponse : ErrCode.transportWriteFailed.response = 0x9 := by decide
  refine ⟨_, step_write_failed hv hb hs hi hc ha, ?_, ?_, fun b hb => ?_⟩
  · simp [raise, afterBusWrite, State.draw, State.emit, State.record, ErrCode.isTransport, Lcd.afterWrite, hresponse]
  · exact (mayHold_afterWrite_false s.latch v v).mpr (.inl rfl)
  · exact (mayHold_afterWrite_false s.latch v b).mpr (.inr hb)

/-- Settles O38: the byte of the failed enable write is one more that the latch may hold. -/
theorem failedEnableWriteMayLeaveEnableHigh : Obligations.FailedEnableWriteMayLeaveEnableHigh := by
  intro s r u hv hb hs hi hc ha
  refine ⟨_, step_write_failed hv hb hs hi hc ha, rfl, ?_, fun hlow => ?_⟩
  · exact (enMayBeHigh_afterWrite_false s.params s.latch _).mpr (.inl (enableSet_raised hv u))
  · exact (enMayBeLow_afterWrite_false s.params s.latch _).mpr (.inr hlow)

/-- Running pseudocode issues calls and answers none, so the expander keeps what it holds. -/
theorem proceed_latch (c : Instr) (k : List Micro) (s : State) : (proceed c k s).latch = s.latch := by
  fun_induction proceed c k s <;> simp_all

/-- Settles O39: after the delivered write the latch holds that byte and no other, and the pseudocode that goes on leaves it. -/
theorem successfulWriteIsWhatTheExpanderHolds : Obligations.SuccessfulWriteIsWhatTheExpanderHolds := by
  intro s r v hv hb hs hi hc ha
  refine ⟨_, step_write_delivered hv hb hs hi hc ha, fun b => ?_, ?_⟩
  · simp [proceed_latch, Latch.afterWrite, Latch.mayHold]
  · simp [proceed_latch, Latch.afterWrite, Latch.enMayBeLow]



end Sys2Proof.Machine
end

section
/-! SUPPORT. The host's text memory and the block's reads of it (spec/20_memory.md R61, R62, R72, R77). -/

namespace Sys2Proof.Machine

/-- Settles O48: the laws of the memory's write. -/
theorem textWriteIsReadBack : Obligations.TextWriteIsReadBack := fun s a b rest hv hw hi =>
  ⟨hostWritesText a b { s with inbox := rest }, step_writeText hv hi, write_wf a b hw, read_write_same hw,
    fun _ hx => read_write_other hx, rfl⟩

/-- A message's pseudocode stops at its first enable write. -/
theorem proceed_message (c : Instr) (p : Params) (b : Byte) (rs : RegSelect) (k : List Micro) (s : State) :
    ∃ q k', proceed c (sendMessage p b rs ++ k) s = await c q k' s :=
  ⟨_, _, rfl⟩

/-- A read in progress ends PRINTS at the terminator, and else issues the character's first write. -/
theorem advance_read_cases {r : Seq} {a : TextAddr} (hc : r.call = .read a) (s : State) :
    (s.readByte a = terminator ∧ advance r s = respondOk r.cmd (afterMemRead a s))
      ∨ (s.readByte a ≠ terminator ∧ ∃ q k, advance r s = await r.cmd q k (afterMemRead a s)) := by
  obtain ⟨c, call, k⟩ := r
  obtain rfl : call = .read a := hc
  rw [advance_read]
  by_cases h : s.readByte a = terminator
  · exact .inl ⟨h, if_pos h⟩
  · obtain ⟨q, k', heq⟩ := proceed_message c s.params (s.readByte a) .data (.nextChar a :: k) (afterMemRead a s)
    exact .inr ⟨h, q, k', (if_neg h).trans heq⟩

/-- Under the invariant INIT reads no text. -/
theorem isInit_of_read {s : State} {r : Seq} {a : TextAddr} (hi : Inv s) (hs : s.seq = some r) (hc : r.call = .read a) :
    s.busy = true ∧ r.cmd.isInit = false := by
  obtain ⟨-, -, -, -, hq⟩ := hi
  simp only [SequencerInv, hs] at hq
  obtain ⟨hb, -, hinit, -⟩ := hq
  refine ⟨hb, Bool.eq_false_iff.mpr fun h => ?_⟩
  obtain ⟨-, -, hread⟩ := hinit h
  exact hread a hc

/-- Settles O40: the read's only effect is its event; what follows it, the response or the next write's issue, touches none of
what the statement names. -/
theorem memReadReturnsTheByteHeld : Obligations.MemReadReturnsTheByteHeld := by
  intro s r a hi hs hbox hc
  obtain ⟨hb, hinit⟩ := isInit_of_read hi hs hc
  obtain ⟨hv, -⟩ := hi
  refine ⟨advance r s, s.readByte a, readByte_mem s a, step_advance hv hbox hb hs, ?_, rfl,
    fun hr => ⟨readByte_of_no_race hr, ?_⟩, ?_⟩
  · rw [advance_eventTrace, hc, State.answerEvent]
  · obtain ⟨-, h⟩ | ⟨-, q, k, h⟩ := advance_read_cases hc s
    · simp [h, hr]
    · simp [h, hr]
  · obtain ⟨hbyte, h⟩ | ⟨-, q, k, h⟩ := advance_read_cases hc s
    · rw [h, hbyte]
      exact ⟨rfl, rfl, rfl, by simp [hinit], rfl, rfl, rfl, rfl, rfl, rfl, rfl, fun hne => absurd rfl hne⟩
    · rw [h]
      exact ⟨rfl, rfl, rfl, rfl, rfl, rfl, rfl, rfl, rfl, rfl, rfl, fun _ => ⟨rfl, hb⟩⟩

/-- Every byte held since the command was accepted is returned for some choice: a replaced one for its place in the list, and
the one held now for a choice past its end. -/
theorem exists_pick {s : State} {a : TextAddr} {b : Byte} (hb : b ∈ s.text.read a :: s.replaced a) :
    ∃ n : Nat, ∀ rest : List Nat, State.readByte { s with picks := n :: rest } a = b := by
  obtain rfl | hb := List.mem_cons.mp hb
  · refine ⟨(s.replaced a).length, fun rest => ?_⟩
    show ((s.replaced a)[(s.replaced a).length]?).getD _ = _
    simp
  · obtain ⟨n, hn⟩ := List.mem_iff_getElem?.mp hb
    refine ⟨n, fun rest => ?_⟩
    show ((s.replaced a)[n]?).getD _ = _
    simp [hn]

theorem replaced_hostWritesText {s : State} (hb : s.busy = true) (a : TextAddr) (b : Byte) :
    (hostWritesText a b s).replaced a = s.text.read a :: s.replaced a
      ∧ ∀ x, x ≠ a → (hostWritesText a b s).replaced x = s.replaced x := by
  refine ⟨?_, fun x hx => ?_⟩
  · simp [State.replaced, hb]
  · simp [State.replaced, hb, hx.symm]

/-- Settles O41: `exists_pick` for the read; and of the cases of a step only a host write adds to the bytes kept, which the
acceptance of a command has emptied. -/
theorem racedReadReturnsAnyByteHeld : Obligations.RacedReadReturnsAnyByteHeld := by
  refine ⟨?read, ?write, fun s t i => exec_raced, ?keep⟩
  case read =>
    intro s r a b hi hs hbox hc hb
    obtain ⟨hbusy, -⟩ := isInit_of_read hi hs hc
    obtain ⟨hv, -⟩ := hi
    obtain ⟨n, hn⟩ := exists_pick hb
    refine ⟨n, fun rest => ⟨advance r { s with picks := n :: rest }, step_advance hv hbox hbusy hs, ?_⟩⟩
    rw [advance_eventTrace, hc, State.answerEvent, hn]
    rfl
  case write =>
    intro s t a b rest hb hbox h
    rw [step_writeText (valid_of_step h) hbox] at h
    obtain rfl := Host.Outcome.next.inj h
    exact replaced_hostWritesText (s := { s with inbox := rest }) hb a b
  case keep =>
    intro s t h hne hb
    cases step_cases h with
    | completes rest hb hs => exact advance_raced _ _
    | accepts hbox hidle => simp [hb] at hidle
    | writesText hbox => exact absurd hbox (hne _ _ _)
    | waits | readsStatus | resets => rfl

end Sys2Proof.Machine
end

section
/-! SUPPORT. Pseudocode of the kinds INIT holds, messages among them, with every transport call answered `true`: one law for the
whole state it leaves (spec/40_encoder.md R136, spec/41_init.md R154). -/

namespace Sys2Proof.Machine

/-- The state after these calls, none of them a read, when every transport call is answered `true`. -/
def State.issued (s : State) (cs : List Call) : State :=
  { s with
    answers := s.answers.drop (cs.countP Call.isTransport)
    drawn := s.drawn + cs.countP Call.isTransport
    latch := s.latch.afterEvents (cs.map (Call.done s.text))
    lcd := s.lcd.afterEvents s.params (cs.map (Call.done s.text))
    log := s.log ++ cs.map (fun q => .event (q.done s.text)) }

/-- The transport answers its next `n` calls with `true`. -/
def State.Grants (s : State) (n : Nat) : Prop := ∀ j, j < n → s.answerAt j = true

theorem latch_afterEvents_append (es es' : List Event) : ∀ l : Latch,
    l.afterEvents (es ++ es') = (l.afterEvents es).afterEvents es' := by
  induction es with
  | nil => exact fun _ => rfl
  | cons e es ih => cases e <;> exact fun _ => ih _

theorem lcd_afterEvents_append (p : Params) (es es' : List Event) : ∀ l : Lcd,
    l.afterEvents p (es ++ es') = (l.afterEvents p es).afterEvents p es' := by
  induction es with
  | nil => exact fun _ => rfl
  | cons e es ih => cases e <;> exact fun _ => ih _

theorem issued_append (s : State) (cs cs' : List Call) : (s.issued cs).issued cs' = s.issued (cs ++ cs') := by
  simp [State.issued, latch_afterEvents_append, lcd_afterEvents_append, Nat.add_assoc]

theorem issued_nil (s : State) : s.issued [] = s := by
  simp [State.issued, Latch.afterEvents, Lcd.afterEvents]

theorem answerAt_issued (s : State) (cs : List Call) (j : Nat) :
    (s.issued cs).answerAt j = s.answerAt (cs.countP Call.isTransport + j) := by
  simp [State.answerAt, State.issued, Nat.add_assoc]

theorem State.Grants.issued {s : State} {n : Nat} {cs : List Call} (h : s.Grants (cs.countP Call.isTransport + n)) :
    (s.issued cs).Grants n := fun j hj => by
  rw [answerAt_issued]
  exact h _ (by omega)

theorem State.Grants.mono {s : State} {m n : Nat} (h : s.Grants n) (hmn : m ≤ n) : s.Grants m := fun j hj => h j (by omega)

/-- A call that is answered, a transport call with `true`. -/
theorem afterCall_granted {s : State} {q : Call} (hq : ∀ a, q ≠ .read a) (hg : s.Grants (if q.isTransport then 1 else 0)) :
    (s.answerEvent q).failed = false ∧ s.afterCall q = s.issued [q] := by
  cases q with
  | busInit =>
    have hans : s.nextAnswer = true := (nextAnswer_eq s).trans (hg 0 Nat.one_pos)
    simp [State.answerEvent, Event.failed, State.afterCall, hans, State.issued, afterBusInit, State.draw, State.emit,
      State.record, Call.isTransport, Call.done, Latch.afterEvents, Lcd.afterEvents]
  | write v =>
    have hans : s.nextAnswer = true := (nextAnswer_eq s).trans (hg 0 Nat.one_pos)
    simp [State.answerEvent, Event.failed, State.afterCall, hans, State.issued, afterBusWrite, State.draw, State.emit,
      State.record, Call.isTransport, Call.done, Latch.afterEvents, Lcd.afterEvents]
  | delay ms =>
    simp [State.answerEvent, Event.failed, State.afterCall, State.issued, State.emit,
      State.record, Call.isTransport, Call.done, Latch.afterEvents, Lcd.afterEvents]
  | read a => exact absurd rfl (hq a)

/-- One undisturbed step completes such a call. -/
theorem run_call {c : Instr} {q : Call} {k : List Micro} {s : State} (n : Nat) (hv : s.params.valid = true)
    (hb : s.busy = true) (hi : s.inbox = []) (hq : ∀ a, q ≠ .read a) (hg : s.Grants (if q.isTransport then 1 else 0)) :
    run (n + 1) (await c q k s) = run n (proceed c k (s.issued [q])) := by
  obtain ⟨hok, hafter⟩ := afterCall_granted (s := await c q k s) hq hg
  have hrest : Seq.goesOn ⟨c, q, k⟩ (await c q k s) = k := by
    cases q with
    | read a => exact absurd rfl (hq a)
    | busInit | write v | delay ms => rfl
  have hstep : step (await c q k s) = .next (proceed c k ((await c q k s).issued [q])) := by
    rw [step_advance (s := await c q k s) (r := ⟨c, q, k⟩) hv hi hb rfl, advance_eq, hok, hafter, hrest]
    rfl
  rw [run_succ_of_step hstep]
  exact congrArg (run n) (proceed_seq c (some ⟨c, q, k⟩) k (s.issued [q]))

/-- The state after pseudocode of INIT's kinds whose transport calls are all answered `true`. -/
def State.ran (s : State) (k : List Micro) : State :=
  { s.issued (restCalls s.params s.bl s.text k).1 with phase := lastPhase s.phase k, cfgIdx := lastCfg s.cfgIdx k }

/-- From an undisturbed busy state whose transport grants its calls, the pseudocode `k` runs to its own end in as many steps as
it makes calls. -/
def RunsThrough (c : Instr) (k' k : List Micro) (s : State) : Prop :=
  s.params.valid = true → s.busy = true → s.inbox = [] →
    s.Grants ((restCalls s.params s.bl s.text k).1.countP Call.isTransport) →
    run (restCalls s.params s.bl s.text k).1.length (proceed c (k ++ k') s) = .next (proceed c k' (s.ran k))

/-- Pseudocode whose first call is `q` and goes on as `k₁`. -/
theorem runsThrough_call {c : Instr} {k' k k₁ : List Micro} {s : State} {q : Call} (hq : ∀ a, q ≠ .read a)
    (hk : proceed c (k ++ k') s = await c q (k₁ ++ k') s)
    (hr : (restCalls s.params s.bl s.text k).1 = q :: (restCalls s.params s.bl s.text k₁).1)
    (hph : lastPhase s.phase k = lastPhase s.phase k₁) (hcfg : lastCfg s.cfgIdx k = lastCfg s.cfgIdx k₁)
    (h : RunsThrough c k' k₁ (s.issued [q])) : RunsThrough c k' k s := by
  intro hv hb hi hg
  have hran : (s.issued [q]).ran k₁ = s.ran k := by
    rw [State.ran, State.ran, issued_append, hph, hcfg, hr]
    rfl
  rw [hr, List.countP_cons, Nat.add_comm] at hg
  have hfirst : s.Grants (if q.isTransport then 1 else 0) := hg.mono (Nat.le_add_right _ _)
  have hrest : (s.issued [q]).Grants ((restCalls s.params s.bl s.text k₁).1.countP Call.isTransport) :=
    State.Grants.issued (by rwa [List.countP_singleton])
  rw [hk, hr, List.length_cons, run_call _ hv hb hi hq hfirst, ← hran]
  exact h hv hb hi hrest

/-- Pseudocode of INIT's kinds runs to its end. -/
theorem runsThrough_of_inInit (c : Instr) (k' : List Micro) {k : List Micro} (hk : k.all Micro.inInit = true) :
    ∀ s : State, RunsThrough c k' k s := by
  induction k with
  | nil =>
    intro s hv hb hi hg
    exact congrArg (fun t => Host.Outcome.next (proceed c k' t)) (issued_nil s).symm
  | cons m k ih =>
    intro s
    rw [List.all_cons, Bool.and_eq_true] at hk
    obtain ⟨hm, hk⟩ := hk
    cases m with
    | setPhase p => exact ih hk { s with phase := p }
    | setCfg i => exact ih hk { s with cfgIdx := i }
    | busInit => exact runsThrough_call (q := .busInit) (by simp) rfl rfl rfl rfl (ih hk _)
    | release v => exact runsThrough_call (q := .write v) (by simp) rfl rfl rfl rfl (ih hk _)
    | enable n rs =>
      exact runsThrough_call (k₁ := .release _ :: k) (by simp) rfl rfl rfl rfl
        (runsThrough_call (by simp) rfl rfl rfl rfl (ih hk _))
    | delay ms =>
      by_cases hms : ms = 0
      · subst hms
        exact ih hk s
      · exact runsThrough_call (q := .delay ms) (k₁ := k) (by simp) (by simp [proceed, hms])
          (by simp [restCalls, delayCalls, hms]) rfl rfl (ih hk _)
    | gateReady | checkColumn | setBl | readChar | nextChar | illegal => cases hm

/-! How many calls of a kind, but no reads, a message and INIT make. -/

section
variable {f : Call → Bool} {w : Bool} (hw : ∀ v, f (.write v) = w) (hd : ∀ ms, f (.delay ms) = false)

include hw in
theorem countP_nibbleCalls (p : Params) (bl : Bool) (n : Nibble) (rs : RegSelect) :
    (nibbleCalls p bl n rs).countP f = 2 * w.toNat := by
  cases w <;> simp [nibbleCalls, frameCalls, hw]

include hd in
theorem countP_delayCalls (ms : Nat) : (delayCalls ms).countP f = 0 := by
  unfold delayCalls
  split <;> simp [hd]

include hw hd in
theorem countP_messageCalls (p : Params) (bl : Bool) (b : Byte) (rs : RegSelect) :
    (messageCalls p bl b rs).countP f = 4 * w.toNat := by
  simp only [messageCalls, List.countP_append, countP_nibbleCalls hw, countP_delayCalls hd]
  omega

include hw hd in
/-- INIT makes one `BusInit`, 30 writes, and delays. -/
theorem countP_initCalls (p : Params) (bl : Bool) : (initCalls p bl).countP f = 30 * w.toNat + (f .busInit).toNat := by
  have hb : (if f .busInit = true then 1 else 0) = (f .busInit).toNat := by cases f .busInit <;> rfl
  simp only [initCalls, List.countP_cons, List.countP_append, countP_nibbleCalls hw, countP_messageCalls hw hd,
    countP_delayCalls hd, hb]
  omega

end

/-! A message (40_encoder.md R136). -/

theorem messageCalls_done (p : Params) (bl : Bool) (b : Byte) (rs : RegSelect) (m : Memory) :
    (messageCalls p bl b rs).map (Call.done m) = messageEvents p bl b rs := by
  unfold messageCalls nibbleCalls frameCalls delayCalls messageEvents
  split <;> rfl

theorem messageCalls_countP (p : Params) (bl : Bool) (b : Byte) (rs : RegSelect) :
    (messageCalls p bl b rs).countP Call.isTransport = 4 :=
  countP_messageCalls (w := true) (fun _ => rfl) (fun _ => rfl) p bl b rs

theorem messageCalls_length (p : Params) (bl : Bool) (b : Byte) (rs : RegSelect) :
    (messageCalls p bl b rs).length = (messageEvents p bl b rs).length := by
  rw [← messageCalls_done p bl b rs [], List.length_map]

/-- The expander holds the last byte of the message. -/
theorem latch_afterEvents_message (p : Params) (bl : Bool) (b : Byte) (rs : RegSelect) (l : Latch) :
    l.afterEvents (messageEvents p bl b rs) = .oneOf [nib p bl (lowNibble b) rs] := by
  unfold messageEvents
  split <;> rfl

/-- The LCD has latched the message's two nibbles, each at its release write. -/
theorem lcd_afterEvents_message {p : Params} (hv : p.valid = true) (bl : Bool) (b : Byte) (rs : RegSelect) (l : Lcd) :
    l.afterEvents p (messageEvents p bl b rs)
      = (l.latchNibble (nib p bl (highNibble b) rs)).latchNibble (nib p bl (lowNibble b) rs) := by
  unfold messageEvents
  split <;> simp [Lcd.afterEvents, Lcd.afterWrite, enableSet_raised hv, enableSet_nib hv]

theorem all_inInit_message (p : Params) (b : Byte) (rs : RegSelect) : (sendMessage p b rs).all Micro.inInit = true := by
  simp [sendMessage, sendNibble, Micro.inInit]

theorem map_event_done (m : Memory) (cs : List Call) :
    cs.map (fun q => Entry.event (q.done m)) = (cs.map (Call.done m)).map .event :=
  (List.map_map ..).symm

/-- The state after a message whose four writes succeed, before the pseudocode goes on. -/
def State.sent (s : State) (b : Byte) (rs : RegSelect) : State :=
  { s with
    answers := s.answers.drop 4
    drawn := s.drawn + 4
    latch := .oneOf [nib s.params s.bl (lowNibble b) rs]
    lcd := (s.lcd.latchNibble (nib s.params s.bl (highNibble b) rs)).latchNibble (nib s.params s.bl (lowNibble b) rs)
    log := s.log ++ (messageEvents s.params s.bl b rs).map .event }

theorem ran_message {s : State} (hv : s.params.valid = true) (b : Byte) (rs : RegSelect) :
    s.ran (sendMessage s.params b rs) = s.sent b rs := by
  have hph : lastPhase s.phase (sendMessage s.params b rs) = s.phase := rfl
  have hcfg : lastCfg s.cfgIdx (sendMessage s.params b rs) = s.cfgIdx := rfl
  rw [State.ran, hph, hcfg, restCalls_msg]
  simp only [State.issued, State.sent, map_event_done, messageCalls_done, messageCalls_countP, latch_afterEvents_message,
    lcd_afterEvents_message hv]

theorem run_message {c : Instr} {k : List Micro} {s : State} {b : Byte} {rs : RegSelect} (hv : s.params.valid = true)
    (hb : s.busy = true) (hi : s.inbox = []) (hg : s.Grants 4) :
    run (messageEvents s.params s.bl b rs).length (proceed c (sendMessage s.params b rs ++ k) s)
      = .next (proceed c k (s.sent b rs)) := by
  have hrun := runsThrough_of_inInit c k (all_inInit_message s.params b rs) s hv hb hi
  rw [restCalls_msg, messageCalls_countP, messageCalls_length] at hrun
  rw [hrun hg, ran_message hv]

/-- Settles O42: the message's calls, in order, and then the rest. -/
theorem sendMessageIsFourWrites : Obligations.SendMessageIsFourWrites :=
  ⟨fun _ _ => ⟨rfl, rfl⟩, fun _ _ _ _ => rfl, fun _ _ _ _ _ hv hb hi hg => run_message hv hb hi hg⟩

/-! The commands that are one message behind the gate. -/

theorem response_ok : ErrCode.ok.response = 0x0 := by decide

/-- A command whose pseudocode, once it is accepted, comes to one message. -/
theorem message_completes {i : Instr} {b : Byte} {rs : RegSelect} {s : State} (hu : Undisturbed s) (hg : s.Grants 4)
    (hi : i.isInit = false)
    (hk : proceed i (program s.params i) (s.accept i) = proceed i (sendMessage s.params b rs) (s.accept i)) :
    ∃ t, exec i s = .next t ∧ run (messageEvents s.params s.bl b rs).length t = .next (messageDone i b rs s) := by
  have hrun := run_message (c := i) (k := []) (s := s.accept i) (b := b) (rs := rs) hu.valid rfl hu.alone hg
  have hdone : proceed i [] ((s.accept i).sent b rs) = messageDone i b rs s := by
    simp [proceed, respondOk, hi, State.sent, State.accept, messageDone, hu.idle, response_ok]
  rw [List.append_nil, hdone] at hrun
  exact ⟨_, exec_of_idle i hu.valid hu.idle, hk ▸ hrun⟩

/-- Settles O27: behind the gate its pseudocode is one message. -/
theorem clearCompletes : Obligations.ClearCompletes := fun s hu hgate hg =>
  message_completes hu hg rfl (gate_open (s := s.accept .clear) hgate .clear _)

/-- Settles O28: behind the gate its pseudocode is one Data message, which always settles with `T_SHORT`. -/
theorem printcCompletes : Obligations.PrintcCompletes := by
  intro s ch hu hgate hg
  obtain ⟨t, hexec, hrun⟩ := message_completes (i := .printc ch) (b := ch) (rs := .data) hu hg rfl
    (gate_open (s := s.accept (.printc ch)) hgate _ _)
  exact ⟨t, hexec, hrun, rfl⟩

/-- The cursor's byte, with the sum modulo 256 written out. -/
theorem cursorByte_eq (p : Params) (row : Row) (col : Byte) :
    cursorByte p row col = p.setCursor ||| BitVec.ofNat 8 (((p.rowBase row).toNat + col.toNat) % 256) := by
  rw [cursorByte]
  congr 1
  apply BitVec.eq_of_toNat_eq
  simp

/-- Settles O29: behind the gate and the bounds test its pseudocode is one message. -/
theorem setcurCompletes : Obligations.SetcurCompletes := by
  intro s row col hu hgate hcol hg b hb
  obtain rfl : cursorByte s.params row col = b := (cursorByte_eq s.params row col).trans hb.symm
  exact message_completes hu hg rfl
    ((gate_open (s := s.accept (.setcur row col)) hgate _ _).trans (column_in (s := s.accept (.setcur row col)) hcol _ _))

/-- Settles O30: behind the gate its pseudocode is one message. -/
theorem curonCompletes : Obligations.CuronCompletes := by
  rintro s hu hgate hg b rfl
  exact message_completes hu hg rfl (gate_open (s := s.accept .curon) hgate .curon _)

/-- Settles O31: behind the gate its pseudocode is one message. -/
theorem curoffCompletes : Obligations.CuroffCompletes := by
  rintro s hu hgate hg b rfl
  exact message_completes hu hg rfl (gate_open (s := s.accept .curoff) hgate .curoff _)

/-! INIT (41_init.md R154). -/

theorem latch_afterEvents_init (p : Params) (bl : Bool) (m : Memory) (l : Latch) :
    l.afterEvents ((initCalls p bl).map (Call.done m)) = .oneOf [nib p bl (lowNibble p.clrLcd) .command] := by
  simp only [initCalls, List.map_cons, List.map_append, Call.done, Latch.afterEvents, latch_afterEvents_append,
    messageCalls_done, latch_afterEvents_message]

theorem run_init {s : State} (hv : s.params.valid = true) (hb : s.busy = true) (hi : s.inbox = []) (hg : s.Grants 31) :
    run (initCalls s.params s.bl).length (proceed .init (initProgram s.params) s)
      = .next (respondOk .init { s.issued (initCalls s.params s.bl) with phase := .ready, cfgIdx := 5 }) := by
  obtain ⟨hk, -, hcfg⟩ := initRest_initProgram s.params s.cfgIdx
  have hrun := runsThrough_of_inInit .init [] hk s hv hb hi
  rw [restCalls_init, countP_initCalls (w := true) (fun _ => rfl) (fun _ => rfl), List.append_nil] at hrun
  rw [hrun hg, State.ran, restCalls_init, lastPhase_init, hcfg]
  rfl

/-- Settles O34: `run_init` from the accepted command; the example's bytes are evaluated. -/
theorem initCompletes : Obligations.InitCompletes := by
  refine ⟨fun s hu hg => ?run, by decide, fun p bl => ⟨?writes, ?busInit⟩⟩
  case run =>
    refine ⟨_, exec_of_idle .init hu.valid hu.idle, ?_⟩
    rw [program, show s.params = (s.accept .init).params from rfl, show s.bl = (s.accept .init).bl from rfl]
    refine (run_init (s := s.accept .init) hu.valid rfl hu.alone hg).trans ?_
    have htransport : (initCalls s.params s.bl).countP Call.isTransport = 31 :=
      countP_initCalls (w := true) (fun _ => rfl) (fun _ => rfl) s.params s.bl
    simp [respondOk, State.issued, State.accept, htransport, latch_afterEvents_init, hu.idle, response_ok, Instr.isInit]
  case writes =>
    exact countP_initCalls (w := true) (fun _ => rfl) (fun _ => rfl) p bl
  case busInit =>
    exact countP_initCalls (w := false) (fun _ => rfl) (fun _ => rfl) p bl

end Sys2Proof.Machine
end

section
/-! SUPPORT. The whole course of a command (spec/60_exceptions.md R224, R226, R227): every command that runs undisturbed makes the
calls of its `plan`, up to the first that fails, and ends. -/

namespace Sys2Proof.Machine

/-- How a command that ran undisturbed from `s` is found when it has ended: the registers of R224, the record, the draws and the
environment its course gives. -/
structure FollowsCourse (i : Instr) (s u : State) : Prop where
  log : u.log = s.log ++ (.accepted i :: ((course i s).1.map .event ++ [.responded i (course i s).2.response]))
  busy : u.busy = false
  seq : u.seq = none
  lastErr : u.lastErr = (course i s).2
  faulted : u.faulted = (s.faulted || (course i s).2.isTransport)
  initPhase : i.isInit = true → u.phase = if (course i s).2 = .ok then .ready else .faulted
  keeps : i.isInit = false → u.phase = s.phase ∧ u.cfgIdx = s.cfgIdx
  setbl : ∀ v, i = .setbl v → u.bl = v
  bl : (∀ v, i ≠ .setbl v) → u.bl = s.bl
  params : u.params = s.params
  text : u.text = s.text
  inbox : u.inbox = s.inbox
  drawn : u.drawn = s.drawn + (course i s).1.countP Event.isTransport
  answers : u.answers = s.answers.drop ((course i s).1.countP Event.isTransport)
  latch : u.latch = s.latch.afterEvents (course i s).1
  lcd : u.lcd = s.lcd.afterCommand s.params i (course i s)

/-- Some run of the command ends so, after as many steps as its course has events. -/
def RunsItsCourse (i : Instr) (s : State) : Prop :=
  ∃ t u, exec i s = .next t ∧ run (course i s).1.length t = .next u ∧ FollowsCourse i s u

/-- A command, no INIT, that is answered at once with no event. -/
theorem runsItsCourse_atOnce {i : Instr} {e : ErrCode} {s : State} (b : Bool) (hb : s.busy = false) (hc : i.isInit = false)
    (he : e.isTransport = false) (hplan : plan i s = ([], e))
    (hexec : exec i s = .next (answeredAtOnce i e { s with bl := b }))
    (hset : ∀ v, i = .setbl v → b = v) (hkeep : (∀ v, i ≠ .setbl v) → b = s.bl) : RunsItsCourse i s := by
  have hcourse : course i s = ([], e) := by rw [course, hplan, play]
  refine ⟨_, _, hexec, by rw [hcourse]; rfl, ?_⟩
  constructor
  case setbl => exact hset
  case bl => exact hkeep
  all_goals simp [hcourse, answeredAtOnce, hb, hc, he, Latch.afterEvents, Lcd.afterCommand, Lcd.afterEvents]

/-- A command whose pseudocode, once it is accepted, comes to `k`, which runs out along the calls of the plan. -/
theorem runsItsCourse_of_runsOut {i : Instr} {k : List Micro} {s : State} (hu : Undisturbed s)
    (hk : proceed i (program s.params i) (s.accept i) = proceed i k (s.accept i))
    (hplan : plan i s = restCalls s.params s.bl s.text k) (hrun : RunsOut i s.params s.bl s.text k)
    (hinit : i.isInit = true → lastPhase s.phase k = .ready) (hdisplay : i.isInit = false → k.all Micro.inDisplay = true)
    (hne : (plan i s).2 = .outOfRange → (plan i s).1 ≠ []) (hset : ∀ v, i ≠ .setbl v) : RunsItsCourse i s := by
  obtain ⟨u, hrun, he⟩ := hrun (s.accept i) rfl rfl rfl hu.alone rfl rfl
  have hcourse : course i s = play (s.accept i).answerAt s.text (restCalls s.params s.bl s.text k).2
      (restCalls s.params s.bl s.text k).1 0 := by
    rw [course, hplan]; rfl
  rw [← hcourse] at hrun he
  refine ⟨_, u, exec_of_idle i hu.valid hu.idle, hk ▸ hrun, ?_⟩
  exact {
    log := by simp [he.log, State.accept]
    busy := he.busy
    seq := he.seq
    lastErr := he.lastErr
    faulted := he.faulted
    initPhase := fun h => (hinit h) ▸ he.initPhase h
    keeps := fun h => he.display h (hdisplay h)
    setbl := fun v h => absurd h (hset v)
    bl := fun _ => he.bl
    params := he.params
    text := he.text
    inbox := he.inbox
    drawn := he.drawn
    answers := he.answers
    latch := he.latch
    lcd := lcd_afterCommand he.lcd hne }

theorem messageCalls_ne_nil (p : Params) (bl : Bool) (b : Byte) (rs : RegSelect) : messageCalls p bl b rs ≠ [] :=
  List.cons_ne_nil _ _

theorem gated_open {s : State} (h : gateCloses s = false) (r : List Call × ErrCode) : gated s r = r := by
  simp [gated, h]

/-- A display command that is one message behind an open gate. -/
theorem runsItsCourse_message {i : Instr} {b : Byte} {rs : RegSelect} {s : State} (hu : Undisturbed s)
    (hi : i.isDisplay = true)
    (hk : proceed i (program s.params i) (s.accept i) = proceed i (sendMessage s.params b rs) (s.accept i))
    (hplan : plan i s = (messageCalls s.params s.bl b rs, .ok)) : RunsItsCourse i s := by
  obtain ⟨hc, -⟩ := program_of_isDisplay hi s.params
  exact runsItsCourse_of_runsOut hu hk (hplan.trans (restCalls_msg ..).symm) (runsOut_msg hu.valid) (by simp [hc])
    (fun _ => allD_msg ..) (by simp [hplan]) (by rintro v rfl; cases hi)

/-- A display command before its closed gate. -/
theorem runsItsCourse_gateCloses {i : Instr} {s : State} (hu : Undisturbed s) (hi : i.isDisplay = true)
    (hgate : gateCloses s = true) : RunsItsCourse i s := by
  obtain ⟨hc, k, -, hk⟩ := program_of_isDisplay hi s.params
  have hplan : plan i s = ([], .notInitialized) := by
    cases i with
    | init | setbl v | reserved w => cases hi
    | _ => simp [plan, gated, hgate]
  refine runsItsCourse_atOnce s.bl hu.idle hc rfl hplan ?_ (by rintro v rfl; cases hi) (fun _ => rfl)
  rw [exec_of_idle i hu.valid hu.idle, hk, gate_closed (s := s.accept i) hgate]
  exact congrArg _ (raise_accepted hc rfl hu.idle)

/-- PRINTS behind an open gate. -/
theorem runsItsCourse_prints {addr : TextAddr} {s : State} (hu : Undisturbed s) (hgate : gateCloses s = false) :
    RunsItsCourse (.prints addr) s := by
  have hplan : plan (.prints addr) s = restCalls s.params s.bl s.text (sendMessage s.params s.params.clrLcd .command
      ++ (sendMessage s.params (cursorByte s.params .first 0) .command ++ [.readChar addr])) := by
    have hhome : cursorByte s.params .first 0 = s.params.setCursor ||| s.params.rowBase0 :=
      congrArg _ (BitVec.add_zero s.params.rowBase0)
    rw [restCalls_append_message, restCalls_append_message, plan, gated_open hgate, hhome]
    rfl
  have hrun : RunsOut (.prints addr) s.params s.bl s.text [.readChar addr] := runsOut_readChar hu.valid _ addr rfl
  refine runsItsCourse_of_runsOut hu ?_ hplan (runsOut_message hu.valid (runsOut_message hu.valid hrun)) nofun ?_ ?_ nofun
  · rw [program, printsProgram, gate_open (s := s.accept (.prints addr)) hgate, List.append_assoc]
  · simp [allD_msg, Micro.inDisplay]
  · rw [hplan, restCalls_append_message]
    simp [messageCalls_ne_nil]

/-- SETCUR behind an open gate. -/
theorem runsItsCourse_setcur {row : Row} {col : Byte} {s : State} (hu : Undisturbed s) (hgate : gateCloses s = false) :
    RunsItsCourse (.setcur row col) s := by
  have hopen := gate_open (s := s.accept (.setcur row col)) hgate (.setcur row col)
  cases hcol : columnOut s.params col with
  | true =>
    refine runsItsCourse_atOnce s.bl hu.idle rfl rfl (e := .outOfRange) (by simp [plan, gated_open hgate, hcol]) ?_ nofun
      (fun _ => rfl)
    rw [exec_of_idle _ hu.valid hu.idle, program, setcurProgram, hopen,
      column_out (s := s.accept (.setcur row col)) hcol]
    exact congrArg _ (raise_accepted rfl rfl hu.idle)
  | false =>
    exact runsItsCourse_message hu rfl ((hopen _).trans (column_in (s := s.accept (.setcur row col)) hcol _ _))
      (by simp [plan, gated_open hgate, hcol])

/-- Every command runs its course. -/
theorem runsItsCourse {i : Instr} {s : State} (hu : Undisturbed s) : RunsItsCourse i s := by
  by_cases hclosed : i.isDisplay = true ∧ gateCloses s = true
  · exact runsItsCourse_gateCloses hu hclosed.1 hclosed.2
  · have hgate (hi : i.isDisplay = true) : gateCloses s = false := Bool.eq_false_iff.mpr fun h => hclosed ⟨hi, h⟩
    have hopen (hi : i.isDisplay = true) := gate_open (s := s.accept i) (hgate hi) i
    cases i with
    | init =>
      exact runsItsCourse_of_runsOut (k := initProgram s.params) hu rfl (restCalls_init ..).symm (runsOut_init hu.valid)
        (fun _ => lastPhase_init ..) nofun (by simp [plan]) nofun
    | clear => exact runsItsCourse_message hu rfl (hopen rfl _) (gated_open (hgate rfl) _)
    | printc ch => exact runsItsCourse_message hu rfl (hopen rfl _) (gated_open (hgate rfl) _)
    | prints addr => exact runsItsCourse_prints hu (hgate rfl)
    | setcur row col => exact runsItsCourse_setcur hu (hgate rfl)
    | curon => exact runsItsCourse_message hu rfl (hopen rfl _) (gated_open (hgate rfl) _)
    | curoff => exact runsItsCourse_message hu rfl (hopen rfl _) (gated_open (hgate rfl) _)
    | setbl v =>
      obtain ⟨hexec, -⟩ := setblSetsTheBacklightBit
      exact runsItsCourse_atOnce v hu.idle rfl rfl rfl (hexec s v hu.valid hu.idle) (fun _ h => Instr.setbl.inj h)
        (fun h => absurd rfl (h v))
    | reserved w =>
      exact runsItsCourse_atOnce s.bl hu.idle rfl rfl rfl (reservedCompletes s w hu.valid hu.idle) nofun (fun _ => rfl)

/-- Settles O43: `runsItsCourse`, its fields in the statement's order. -/
theorem commandsFollowTheirCourse : Obligations.CommandsFollowTheirCourse := by
  intro i s hu
  obtain ⟨t, u, hexec, hrun, h⟩ := runsItsCourse (i := i) hu
  refine ⟨t, u, hexec, hrun, h.log, h.busy, h.seq, h.lastErr, h.faulted, ?phase, fun hi => (h.keeps hi).2, ?bl, h.params,
    h.text, h.inbox, h.drawn, h.answers, h.latch, h.lcd⟩
  case phase =>
    cases hi : i.isInit with
    | true => exact h.initPhase hi
    | false => exact (h.keeps hi).1
  case bl =>
    cases i with
    | setbl v => exact h.setbl v rfl
    | _ => exact h.bl nofun

/-! How long a course can be (43_control_ops.md R203). -/

theorem play_length_le (ans : Nat → Bool) (m : Memory) (e : ErrCode) : ∀ (cs : List Call) (n : Nat),
    (play ans m e cs n).1.length ≤ cs.length
  | [], _ => Nat.le_refl _
  | .busInit :: cs, n => by
    have ih := play_length_le ans m e cs (n + 1)
    cases h : ans n <;> simp [play, h, ih]
  | .write v :: cs, n => by
    have ih := play_length_le ans m e cs (n + 1)
    cases h : ans n <;> simp [play, h, ih]
  | .delay ms :: cs, n => Nat.succ_le_succ (play_length_le ans m e cs n)
  | .read a :: cs, n => Nat.succ_le_succ (play_length_le ans m e cs n)

theorem delayCalls_length_le (ms : Nat) : (delayCalls ms).length ≤ 1 := by
  unfold delayCalls
  split <;> simp

theorem messageCalls_length_le (p : Params) (bl : Bool) (b : Byte) (rs : RegSelect) : (messageCalls p bl b rs).length ≤ 5 := by
  have h := delayCalls_length_le (settle p b rs)
  simp only [messageCalls, nibbleCalls, frameCalls, List.length_append, List.length_cons, List.length_nil]
  omega

theorem textCalls_length_le (p : Params) (bl : Bool) (m : Memory) : ∀ (n : Nat) (a : TextAddr),
    (textCalls p bl m n a).1.length ≤ 6 * n
  | 0, _ => Nat.le_refl _
  | n + 1, a => by
    have ih := textCalls_length_le p bl m n (a + 1)
    have hmsg := messageCalls_length_le p bl (m.read a) .data
    rw [textCalls]
    split
    · simp; omega
    · simp only [List.length_cons, List.length_append]
      omega

theorem initCalls_length_le (p : Params) (bl : Bool) : (initCalls p bl).length ≤ 41 := by
  have hm (b : Byte) := messageCalls_length_le p bl b .command
  have hd := delayCalls_length_le
  simp only [initCalls, nibbleCalls, frameCalls, List.length_append, List.length_cons, List.length_nil]
  linarith [hm p.functionSet, hm p.displayControl, hm p.returnHome, hm (p.entryMode ||| p.autoincrement),
    hm (p.displayControl ||| p.displayOn), hm p.clrLcd, hd p.tInit, hd p.tBoot1, hd p.tBoot2, hd p.tBoot3]

theorem gated_length_le {s : State} {r : List Call × ErrCode} {n : Nat} (h : r.1.length ≤ n) : (gated s r).1.length ≤ n := by
  unfold gated
  split
  · exact Nat.zero_le n
  · exact h

/-- PRINTS of the whole memory makes the longest plan: two messages, and a read and a message for each of 4096 bytes. -/
theorem plan_length_le (i : Instr) (s : State) : (plan i s).1.length ≤ 24586 := by
  have hm (b : Byte) (rs : RegSelect) : (messageCalls s.params s.bl b rs).length ≤ 24586 :=
    (messageCalls_length_le _ _ _ _).trans (by decide)
  cases i with
  | init => exact (initCalls_length_le _ _).trans (by decide)
  | clear => exact gated_length_le (hm _ _)
  | printc ch => exact gated_length_le (hm _ _)
  | prints addr =>
    refine gated_length_le ?_
    have hclear := messageCalls_length_le s.params s.bl s.params.clrLcd .command
    have hhome := messageCalls_length_le s.params s.bl (s.params.setCursor ||| s.params.rowBase0) .command
    have htext := textCalls_length_le s.params s.bl s.text (Memory.size - addr.toNat) addr
    have hsize : Memory.size = 4096 := rfl
    simp only [List.length_append]
    omega
  | setcur row col =>
    refine gated_length_le ?_
    split
    · exact Nat.zero_le _
    · exact hm _ _
  | curon => exact gated_length_le (hm _ _)
  | curoff => exact gated_length_le (hm _ _)
  | setbl v => exact Nat.zero_le _
  | reserved w => exact Nat.zero_le _

/-- Settles O46: a command ends with its course, which has at most one event for each call of its plan. -/
theorem everyCommandEnds : Obligations.EveryCommandEnds := by
  intro i s hu
  obtain ⟨t, u, hexec, hrun, h⟩ := runsItsCourse (i := i) hu
  exact ⟨t, u, _, (play_length_le _ _ _ _ _).trans (plan_length_le i s), hexec, hrun, h.busy⟩

end Sys2Proof.Machine
end

section
/-! SUPPORT. PRINTS with every write answered `true` (spec/42_display_ops.md R173, R179, R180): its course, over a text with a
terminator and over one without. -/

namespace Sys2Proof.Machine

/-- A call answered `true` in front of a course. -/
theorem play_cons_granted {ans : Nat → Bool} {m : Memory} {e : ErrCode} {q : Call} {cs : List Call} {n : Nat}
    (h : q.isTransport = true → ans n = true) : play ans m e (q :: cs) n =
      (q.done m :: (play ans m e cs (n + if q.isTransport then 1 else 0)).1,
        (play ans m e cs (n + if q.isTransport then 1 else 0)).2) := by
  cases q with
  | busInit | write v => exact if_pos (h rfl)
  | delay ms | read a => rfl

/-- Calls answered `true` in front of a course. -/
theorem play_append_granted (ans : Nat → Bool) (m : Memory) (e : ErrCode) (cs : List Call) : ∀ (pre : List Call) (n : Nat),
    (∀ j, j < pre.countP Call.isTransport → ans (n + j) = true) →
    play ans m e (pre ++ cs) n = (pre.map (Call.done m) ++ (play ans m e cs (n + pre.countP Call.isTransport)).1,
      (play ans m e cs (n + pre.countP Call.isTransport)).2)
  | [], _, _ => rfl
  | q :: pre, n, h => by
    rw [List.countP_cons] at h ⊢
    have hq : q.isTransport = true → ans n = true := fun hq => h 0 (by simp [hq])
    have ih := play_append_granted ans m e cs pre (n + if q.isTransport then 1 else 0) fun j hj => by
      rw [Nat.add_assoc]
      exact h _ (by omega)
    rw [List.cons_append, play_cons_granted hq, ih, Nat.add_assoc, Nat.add_comm (pre.countP _)]
    rfl

/-- Where the transport answers every call with `true`, a course makes all its calls. -/
theorem play_granted (ans : Nat → Bool) (m : Memory) (e : ErrCode) (cs : List Call) (n : Nat)
    (h : ∀ j, j < cs.countP Call.isTransport → ans (n + j) = true) : play ans m e cs n = (cs.map (Call.done m), e) := by
  have hplay := play_append_granted ans m e [] cs n h
  rwa [List.append_nil, play, List.append_nil] at hplay

/-- The read of the `j`-th character of a text and the message that sends it. -/
def charCalls (p : Params) (bl : Bool) (m : Memory) (addr : TextAddr) (j : Nat) : List Call :=
  .read (addr + BitVec.ofNat 12 j) :: messageCalls p bl (m.read (addr + BitVec.ofNat 12 j)) .data

theorem addr_succ_add (a : TextAddr) (j : Nat) : a + 1 + BitVec.ofNat 12 j = a + BitVec.ofNat 12 (j + 1) := by
  rw [BitVec.ofNat_add, BitVec.add_assoc, BitVec.add_comm 1]
  rfl

theorem charCalls_succ (p : Params) (bl : Bool) (m : Memory) (a : TextAddr) (j : Nat) :
    charCalls p bl m (a + 1) j = charCalls p bl m a (j + 1) := by
  rw [charCalls, charCalls, addr_succ_add]

/-- `k` characters that are no terminator are read and sent, and the text goes on after them. -/
theorem textCalls_of_chars (p : Params) (bl : Bool) (m : Memory) (n : Nat) : ∀ (k : Nat) (a : TextAddr),
    (∀ j, j < k → m.read (a + BitVec.ofNat 12 j) ≠ terminator) →
    textCalls p bl m (k + n) a = ((List.range k).flatMap (charCalls p bl m a) ++ (textCalls p bl m n (a + BitVec.ofNat 12 k)).1,
      (textCalls p bl m n (a + BitVec.ofNat 12 k)).2)
  | 0, a, _ => by simp
  | k + 1, a, h => by
    have hfirst : m.read a ≠ terminator := by simpa using h 0 (Nat.succ_pos k)
    have ih := textCalls_of_chars p bl m n k (a + 1) fun j hj => by
      rw [addr_succ_add]
      exact h (j + 1) (Nat.succ_lt_succ hj)
    have hhead : charCalls p bl m a 0 = .read a :: messageCalls p bl (m.read a) .data := by simp [charCalls]
    have htail : (charCalls p bl m (a + 1)) = fun j => charCalls p bl m a (j + 1) := funext (charCalls_succ p bl m a)
    rw [show k + 1 + n = (k + n) + 1 by omega, textCalls, if_neg hfirst, ih, addr_succ_add, List.range_succ_eq_map,
      List.flatMap_cons, List.flatMap_map, hhead, htail]
    simp

/-- The events of a text's characters. -/
def charEvents (p : Params) (bl : Bool) (m : Memory) (addr : TextAddr) (j : Nat) : List Event :=
  .read (addr + BitVec.ofNat 12 j) (m.read (addr + BitVec.ofNat 12 j))
    :: messageEvents p bl (m.read (addr + BitVec.ofNat 12 j)) .data

theorem charCalls_done (p : Params) (bl : Bool) (m : Memory) (addr : TextAddr) (j : Nat) :
    (charCalls p bl m addr j).map (Call.done m) = charEvents p bl m addr j := by
  rw [charCalls, List.map_cons, messageCalls_done]
  rfl

theorem textChars_countP (p : Params) (bl : Bool) (m : Memory) (addr : TextAddr) (k : Nat) :
    ((List.range k).flatMap (charCalls p bl m addr)).countP Call.isTransport = 4 * k := by
  have hchar : Function.comp (List.countP Call.isTransport) (charCalls p bl m addr) = fun _ => 4 := by
    funext j
    simp [charCalls, messageCalls_countP, Call.isTransport]
  simp [List.countP_flatMap, hchar, Nat.mul_comm]

/-- The course of PRINTS behind an open gate over `k` characters that are no terminator, with every write answered `true`, from
the calls `tail` that follow them. -/
theorem course_prints {s : State} {addr : TextAddr} {k n : Nat} (hgate : gateCloses s = false)
    (hn : Memory.size - addr.toNat = k + n)
    (hchars : ∀ j, j < k → s.text.read (addr + BitVec.ofNat 12 j) ≠ terminator)
    (htail : (textCalls s.params s.bl s.text n (addr + BitVec.ofNat 12 k)).1.countP Call.isTransport = 0)
    (hg : s.Grants (8 + 4 * k)) :
    course (.prints addr) s =
      (messageEvents s.params s.bl s.params.clrLcd .command
        ++ messageEvents s.params s.bl (s.params.setCursor ||| s.params.rowBase0) .command
        ++ (List.range k).flatMap (charEvents s.params s.bl s.text addr)
        ++ (textCalls s.params s.bl s.text n (addr + BitVec.ofNat 12 k)).1.map (Call.done s.text),
      (textCalls s.params s.bl s.text n (addr + BitVec.ofNat 12 k)).2) := by
  rw [course, plan, gated_open hgate, hn, textCalls_of_chars _ _ _ _ _ _ hchars, play_granted]
  · simp [messageCalls_done, List.map_flatMap, charCalls_done]
  · intro j hj
    rw [Nat.zero_add]
    refine hg j (hj.trans_eq ?_)
    simp only [List.countP_append, messageCalls_countP, textChars_countP, htail]
    omega

/-- What the statements about PRINTS say of its end besides the record. -/
theorem FollowsCourse.sameRegisters {i : Instr} {s u : State} (h : FollowsCourse i s u) (hi : i.isDisplay = true) :
    SameRegisters s u := by
  obtain ⟨hc, -⟩ := program_of_isDisplay hi s.params
  obtain ⟨hph, hcfg⟩ := h.keeps hc
  exact ⟨h.params, hph, hcfg, h.bl (by rintro v rfl; cases hi), h.text, h.inbox⟩

/-- A PRINTS whose course does not end with a transport error. -/
theorem prints_ends {s : State} {addr : TextAddr} {evs : List Event} {e : ErrCode} (hu : Undisturbed s)
    (hcourse : course (.prints addr) s = (evs, e)) (he : e.isTransport = false) :
    ∃ t u, exec (.prints addr) s = .next t ∧ run evs.length t = .next u
      ∧ u.log = s.log ++ (.accepted (.prints addr) :: (evs.map .event ++ [.responded (.prints addr) e.response]))
      ∧ SameRegisters s u ∧ u.busy = false ∧ u.lastErr = e ∧ u.faulted = s.faulted
      ∧ u.latch = s.latch.afterEvents evs ∧ u.lcd = s.lcd.afterCommand s.params (.prints addr) (evs, e) := by
  obtain ⟨t, u, hexec, hrun, h⟩ := runsItsCourse (i := .prints addr) hu
  have hfaulted := h.faulted
  have hlog := h.log
  rw [hcourse] at hrun hfaulted hlog
  exact ⟨t, u, hexec, hrun, hlog, h.sameRegisters rfl, h.busy, by rw [h.lastErr, hcourse],
    by rw [hfaulted, he, Bool.or_false], by rw [h.latch, hcourse], by rw [h.lcd, hcourse]⟩

/-- Settles O32: the text calls that are left at the terminator are its one read. -/
theorem printsCompletes : Obligations.PrintsCompletes := by
  rintro s addr k hu hgate hk hchars hend hg evs hevs
  have hlast : Memory.size - addr.toNat = k + ((Memory.size - addr.toNat - k - 1) + 1) := by
    have : Memory.size = 4096 := rfl
    omega
  have htext : textCalls s.params s.bl s.text (Memory.size - addr.toNat - k - 1 + 1) (addr + BitVec.ofNat 12 k)
      = ([.read (addr + BitVec.ofNat 12 k)], .ok) := if_pos hend
  have hcourse : course (.prints addr) s = (evs, .ok) := by
    rw [course_prints hgate hlast hchars (by rw [htext]; rfl) hg, htext, hevs]
    simp only [List.map_cons, List.map_nil, Call.done, hend]
    rfl
  exact response_ok ▸ prints_ends hu hcourse rfl

/-- Settles O33: with no terminator the text calls end at the top with the code OutOfRange. -/
theorem printsWithoutTerminatorEndsOutOfRange : Obligations.PrintsWithoutTerminatorEndsOutOfRange := by
  rintro s addr hu hgate hchars hg evs hevs
  have hresponse : ErrCode.outOfRange.response = 0xC := by decide
  have hchars' : ∀ j, j < 4096 - addr.toNat → s.text.read (addr + BitVec.ofNat 12 j) ≠ terminator := by
    intro j hj
    refine hchars _ ?_
    rw [BitVec.toNat_add, BitVec.toNat_ofNat]
    show addr.toNat ≤ (addr.toNat + j % 4096) % 4096
    omega
  have hcourse : course (.prints addr) s = (evs, .outOfRange) := by
    rw [course_prints (n := 0) hgate rfl hchars' rfl hg, hevs]
    simp only [textCalls, List.map_nil, List.append_nil]
    rfl
  have hne : evs ≠ [] := by
    rw [hevs]
    simp [messageEvents]
  obtain ⟨t, u, hexec, hrun, hlog, hsame, hbusy, herr, hfaulted, hlatch, hlcd⟩ := prints_ends hu hcourse rfl
  refine ⟨t, u, hexec, hrun, hresponse ▸ hlog, hsame, hbusy, herr, hfaulted, hlatch, hlcd.trans ?_⟩
  rw [Lcd.afterCommand, if_neg (by simp), if_neg hne]

end Sys2Proof.Machine
end

section
/-! SUPPORT. INIT while it runs and where it fails (spec/41_init.md R151 to R153), and the events of a command at every point of
its run (spec/20_memory.md R76, spec/60_exceptions.md R227). -/

namespace Sys2Proof.Machine

theorem initStages_calls (p : Params) (bl : Bool) : (initStages p bl).map (fun x => x.1) = initCalls p bl := by
  have hstage (ph : Phase) (i : Fin 6) (cs : List Call) : (stage ph i cs).map (fun x => x.1) = cs := by
    simp [stage, Function.comp_def]
  simp only [initStages, List.map_append, hstage, initCalls, List.append_assoc, List.cons_append]

theorem drawsBefore_init (p : Params) (bl : Bool) (j : Nat) :
    drawsBefore j (initStages p bl) = ((initCalls p bl).take j).countP Call.isTransport := by
  rw [drawsBefore, ← initStages_calls, ← List.map_take, List.countP_map]
  rfl

/-- A started INIT, call by call. -/
theorem init_stage {s : State} {j : Nat} {c : Call} {ph : Phase} {i : Fin 6} (hu : Undisturbed s)
    (hx : (initStages s.params s.bl)[j]? = some (c, ph, i))
    (hg : s.Grants (((initCalls s.params s.bl).take j).countP Call.isTransport)) :
    ∃ t u, exec .init s = .next t ∧ run j t = .next u ∧ u.busy = true ∧ u.callInProgress = some c ∧ u.phase = ph
      ∧ u.cfgIdx = i ∧ u.bl = s.bl := by
  obtain ⟨u, hrun, h⟩ := stagesOf_init (c := .init) (bl := s.bl) hu.valid (s.accept .init) j (c, ph, i) rfl rfl hu.alone rfl
    (by rw [restStages_init]; exact hx) (by rw [restStages_init, drawsBefore_init]; exact hg)
  exact ⟨_, u, exec_of_idle .init hu.valid hu.idle, hrun, h⟩

/-- Settles O35: the calls of INIT's pseudocode with their phase and index are the spec's list, whose example is evaluated. -/
theorem initPhases : Obligations.InitPhases :=
  ⟨fun _ _ _ _ _ hu hx hg => init_stage hu hx hg, initStages_calls, by decide⟩

/-! A failing INIT (41_init.md R153). -/

/-- A quiet host: the block completes its call, or waits. -/
theorem quiet_step_cases {s t : State} (hi : s.inbox = []) (h : step s = .next t) :
    (s.busy = false ∧ t = s) ∨ (s.busy = true ∧ ∃ r, s.seq = some r ∧ t = advance r s) := by
  rw [step_quiet (valid_of_step h) hi] at h
  unfold blockStep at h
  split at h
  case h_1 hb => exact .inl ⟨hb, (Host.Outcome.next.inj h).symm⟩
  case h_2 r hb hs => exact .inr ⟨hb, r, hs, (Host.Outcome.next.inj h).symm⟩
  case h_3 => cases h

theorem quiet_step_inbox {s t : State} (hi : s.inbox = []) (h : step s = .next t) : t.inbox = [] := by
  obtain ⟨-, rfl⟩ | ⟨-, r, -, rfl⟩ := quiet_step_cases hi h
  · exact hi
  · rw [advance_inbox, hi]

/-- The calls up to a write that is the first to fail. -/
theorem play_of_failed_write {ans : Nat → Bool} {m : Memory} {e : ErrCode} {v : Byte} {pre post : List Call}
    (hg : ∀ j, j < pre.countP Call.isTransport → ans j = true) (hf : ans (pre.countP Call.isTransport) = false) :
    play ans m e (pre ++ .write v :: post) 0 = (pre.map (Call.done m) ++ [.write v false], .transportWriteFailed) := by
  rw [play_append_granted ans m e _ pre 0 (by simpa using hg), Nat.zero_add, play, if_neg (by simp [hf])]

/-- Where the `m`-th of the entries a filter keeps stands in the list. -/
theorem exists_index_of_filter {α : Type} {q : α → Bool} {x : α} : ∀ {l : List α} {m : Nat}, (l.filter q)[m]? = some x →
    ∃ n, l[n]? = some x ∧ (l.take n).countP q = m
  | [], m, h => by simp at h
  | a :: l, m, h => by
    cases ha : q a with
    | false =>
      rw [List.filter_cons_of_neg (by simp [ha])] at h
      obtain ⟨n, hn, hm⟩ := exists_index_of_filter h
      exact ⟨n + 1, hn, by simpa [ha] using hm⟩
    | true =>
      rw [List.filter_cons_of_pos ha] at h
      cases m with
      | zero => exact ⟨0, h, rfl⟩
      | succ m =>
        obtain ⟨n, hn, hm⟩ := exists_index_of_filter h
        exact ⟨n + 1, hn, by simp [ha, hm]⟩

/-- The writes of a message, with the phase and index of the message. -/
def messageStage (p : Params) (bl : Bool) (b : Byte) (i : Fin 6) : List (Call × Phase × Fin 6) :=
  stage .config i (nibbleCalls p bl (highNibble b) .command ++ nibbleCalls p bl (lowNibble b) .command)

/-- The 30 writes of INIT, each with the phase and index it is in progress with. -/
def initWrites (p : Params) (bl : Bool) : List (Call × Phase × Fin 6) :=
  stage .boot1 0 (nibbleCalls p bl p.bootNibble1 .command) ++ stage .boot2 0 (nibbleCalls p bl p.bootNibble2 .command)
    ++ stage .boot3 0 (nibbleCalls p bl p.bootNibble3 .command)
    ++ messageStage p bl p.functionSet 0 ++ messageStage p bl p.displayControl 1 ++ messageStage p bl p.returnHome 2
    ++ messageStage p bl (p.entryMode ||| p.autoincrement) 3 ++ messageStage p bl (p.displayControl ||| p.displayOn) 4
    ++ messageStage p bl p.clrLcd 5

theorem filter_stage (ph : Phase) (i : Fin 6) (cs : List Call) :
    (stage ph i cs).filter (fun x => x.1.isTransport) = stage ph i (cs.filter Call.isTransport) :=
  List.filter_map

theorem filter_delayCalls (ms : Nat) : (delayCalls ms).filter Call.isTransport = [] := by
  unfold delayCalls
  split <;> rfl

theorem filter_nibbleCalls (p : Params) (bl : Bool) (n : Nibble) (rs : RegSelect) :
    (nibbleCalls p bl n rs).filter Call.isTransport = nibbleCalls p bl n rs :=
  rfl

theorem filter_messageCalls (p : Params) (bl : Bool) (b : Byte) (rs : RegSelect) :
    (messageCalls p bl b rs).filter Call.isTransport
      = nibbleCalls p bl (highNibble b) rs ++ nibbleCalls p bl (lowNibble b) rs := by
  simp only [messageCalls, List.filter_append, filter_nibbleCalls, filter_delayCalls, List.append_nil]

/-- The transport calls of INIT are its `BusInit` and its writes. -/
theorem initStages_transport (p : Params) (bl : Bool) :
    (initStages p bl).filter (fun x => x.1.isTransport) = (.busInit, .uninit, 0) :: initWrites p bl := by
  have hinit (ms : Nat) : (Call.busInit :: delayCalls ms).filter Call.isTransport = [.busInit] := by
    rw [List.filter_cons_of_pos rfl, filter_delayCalls]
  simp only [initStages, List.filter_append, filter_stage, hinit, filter_nibbleCalls, filter_messageCalls, filter_delayCalls,
    List.append_nil]
  rfl

/-- The index that write number `j + 1` of INIT is in progress with (41_init.md R153). -/
theorem initWrites_at (p : Params) (bl : Bool) {j : Nat} (hj : j < 30) : ∃ v ph, ∃ i : Fin 6,
    (initWrites p bl)[j]? = some (.write v, ph, i) ∧ i.val = (j - 6) / 4 := by
  have hlen : (initWrites p bl).length = 30 := rfl
  have hcfg : (initWrites p bl).map (fun x => x.2.2.val) = (List.range 30).map (fun j => (j - 6) / 4) := rfl
  have hwrite : ∀ x ∈ initWrites p bl, ∃ v, x.1 = .write v := by
    simp [initWrites, messageStage, stage, nibbleCalls, frameCalls]
  have hx : (initWrites p bl)[j]? = some ((initWrites p bl)[j]'(by omega)) := List.getElem?_eq_getElem _
  obtain ⟨v, hv⟩ := hwrite _ (List.mem_of_getElem? hx)
  have hi := congrArg (fun l => l[j]?) hcfg
  simp only [List.getElem?_map, hx, List.getElem?_range hj, Option.map_some] at hi
  exact ⟨v, _, _, by rw [hx, ← hv], Option.some.inj hi⟩

/-- Write number `j + 1` of INIT among all its calls. -/
theorem initStages_write (p : Params) (bl : Bool) {j : Nat} (hj : j < 30) : ∃ n v ph, ∃ i : Fin 6,
    (initStages p bl)[n]? = some (.write v, ph, i) ∧ i.val = (j - 6) / 4
      ∧ ((initCalls p bl).take n).countP Call.isTransport = j + 1 := by
  obtain ⟨v, ph, i, hx, hi⟩ := initWrites_at p bl hj
  obtain ⟨n, hn, hcount⟩ := exists_index_of_filter (q := fun x : Call × Phase × Fin 6 => x.1.isTransport) (m := j + 1)
    (by rw [initStages_transport]; exact hx)
  exact ⟨n, v, ph, i, hn, hi, by rw [← drawsBefore_init]; exact hcount⟩

theorem run_append : ∀ {m : Nat} (n : Nat) {s t : State}, run m s = .next t → run (m + n) s = run n t
  | 0, n, s, t, h => by
    obtain rfl := Host.Outcome.next.inj h
    rw [Nat.zero_add]
  | m + 1, n, s, t, h => by
    cases hs : step s with
    | next s' =>
      rw [run_succ_of_step hs] at h
      rw [Nat.add_right_comm, run_succ_of_step hs, run_append n h]
    | fault r => simp [run, hs] at h
    | refused r => simp [run, hs] at h

theorem step_of_run_one {s t : State} (h : run 1 s = .next t) : step s = .next t := by
  cases hs : step s with
  | next s' => rwa [run_succ_of_step hs] at h
  | fault r => simp [run, hs] at h
  | refused r => simp [run, hs] at h

theorem filterMap_event (es : List Event) : (es.map Entry.event).filterMap Entry.event? = es := by
  induction es with
  | nil => rfl
  | cons e es ih => exact congrArg (e :: ·) ih

theorem FollowsCourse.eventTrace {i : Instr} {s u : State} (h : FollowsCourse i s u) :
    u.eventTrace = s.eventTrace ++ (course i s).1 := by
  rw [State.eventTrace, h.log, List.filterMap_append, List.filterMap_cons_none rfl, List.filterMap_append, filterMap_event]
  exact congrArg (s.eventTrace ++ ·) (List.append_nil _)

/-- The step that completes a failing call keeps the index. -/
theorem cfgIdx_of_failed_call {s u : State} {e : Event} (hi : s.inbox = []) (h : step s = .next u)
    (he : e.failed = true) (htrace : u.eventTrace.getLast? = some e) : u.cfgIdx = s.cfgIdx := by
  obtain ⟨-, rfl⟩ | ⟨-, r, hs, rfl⟩ := quiet_step_cases hi h
  · rfl
  · rw [advance_eventTrace, List.getLast?_concat] at htrace
    rw [advance_eq, Option.some.inj htrace, if_pos he, raise_cfgIdx, afterCall_cfgIdx]

theorem exec_inbox {i : Instr} {s t : State} (h : exec i s = .next t) : t.inbox = s.inbox := by
  rw [exec_eq_next h, proceed_inbox]; rfl

/-- The course of an INIT whose call number `n`, a write, is the first to fail. -/
theorem course_init_of_failed_write {s : State} {n : Nat} {v : Byte} (hx : (initCalls s.params s.bl)[n]? = some (.write v))
    (hg : s.Grants (((initCalls s.params s.bl).take n).countP Call.isTransport))
    (hf : s.answerAt (((initCalls s.params s.bl).take n).countP Call.isTransport) = false) :
    course .init s = (((initCalls s.params s.bl).take n).map (Call.done s.text) ++ [.write v false], .transportWriteFailed) := by
  obtain ⟨hlt, hget⟩ := List.getElem?_eq_some_iff.mp hx
  have hsplit : (initCalls s.params s.bl).take n ++ .write v :: (initCalls s.params s.bl).drop (n + 1)
      = initCalls s.params s.bl := by
    rw [← hget, List.getElem_cons_drop, List.take_append_drop]
  have hplay := play_of_failed_write (m := s.text) (e := .ok) (post := (initCalls s.params s.bl).drop (n + 1)) hg hf (v := v)
  rwa [hsplit] at hplay

theorem isTransport_done (m : Memory) (q : Call) : (q.done m).isTransport = q.isTransport := by cases q <;> rfl

theorem failed_done (m : Memory) (q : Call) : (q.done m).failed = false := by cases q <;> rfl

/-- INIT's pseudocode stops at its first call, `BusInit`. -/
theorem proceed_init (s : State) : ∃ k, proceed .init (program s.params .init) s
    = await .init .busInit k { s with phase := .uninit, cfgIdx := 0 } :=
  ⟨_, rfl⟩

theorem step_busInit_failed {c : Instr} {k : List Micro} {s : State} (hv : s.params.valid = true) (hb : s.busy = true)
    (hi : s.inbox = []) (hf : s.answerAt 0 = false) :
    step (await c .busInit k s) = .next (raise c .transportInitFailed (afterBusInit false (await c .busInit k s))) := by
  have hans : (await c .busInit k s).answerAt 0 = false := hf
  rw [step_advance (s := await c .busInit k s) hv hi hb rfl, advance_busInit, hans]
  rfl

/-- Settles O36: a failing `BusInit` is one step; a failing write ends the course, and the index is the one INIT's pseudocode
holds during that call. -/
theorem failedInit : Obligations.FailedInit := by
  refine ⟨fun s hu hf => ?busInit, fun s j hu hj hg hf => ?write⟩
  case busInit =>
    have hresponse : ErrCode.transportInitFailed.response = 0xA := by decide
    obtain ⟨k, hk⟩ := proceed_init (s.accept .init)
    have hstep := step_busInit_failed (c := .init) (k := k) (s := { s.accept .init with phase := .uninit, cfgIdx := 0 })
      hu.valid rfl hu.alone hf
    refine ⟨_, exec_of_idle .init hu.valid hu.idle, (congrArg (run 1) hk).trans ((run_succ_of_step hstep 0).trans ?_)⟩
    simp [run, raise, hresponse, afterBusInit, State.draw, State.emit, State.record, await, State.accept, hu.idle,
      Instr.isInit, ErrCode.isTransport]
  case write =>
    obtain ⟨n, v, ph, i, hx, hi, hcount⟩ := initStages_write s.params s.bl hj
    have hcalls : (initCalls s.params s.bl)[n]? = some (.write v) := by
      rw [← initStages_calls, List.getElem?_map, hx]
      rfl
    have hgrants : s.Grants (((initCalls s.params s.bl).take n).countP Call.isTransport) := by
      rw [hcount]
      exact fun m hm => hg m (by omega)
    have hcourse := course_init_of_failed_write hcalls hgrants (hcount ▸ hf)
    obtain ⟨hlt, -⟩ := List.getElem?_eq_some_iff.mp hcalls
    have hlen : ((initCalls s.params s.bl).take n).length = n := List.length_take_of_le hlt.le
    obtain ⟨t, w, hexec, hrunw, -, -, -, hcfgw, -⟩ := init_stage hu hx hgrants
    obtain ⟨t', u, hexec', hrun, h⟩ := runsItsCourse (i := .init) hu
    obtain rfl : t = t' := Host.Outcome.next.inj (hexec.symm.trans hexec')
    have hcourselen : (course .init s).1.length = n + 1 := by
      rw [hcourse, List.length_append, List.length_map, hlen]
      rfl
    have hstep : step w = .next u := by
      rw [hcourselen, run_append 1 hrunw] at hrun
      exact step_of_run_one hrun
    have hinbox : w.inbox = [] :=
      run_preserves (P := fun s => s.inbox = []) (fun _ _ => quiet_step_inbox) n t w ((exec_inbox hexec).trans hu.alone) hrunw
    have hcfg : u.cfgIdx = w.cfgIdx := by
      refine cfgIdx_of_failed_call (e := .write v false) hinbox hstep rfl ?_
      rw [h.eventTrace, hcourse, ← List.append_assoc, List.getLast?_concat]
    have hresponse : ErrCode.transportWriteFailed.response = 0x9 := by decide
    have hlog := h.log
    have hfaulted := h.faulted
    rw [hcourse, hresponse, List.map_append, List.append_assoc] at hlog
    rw [hcourse] at hfaulted
    refine ⟨t, u, _, hexec, hrun, h.busy, ?_, hfaulted.trans (Bool.or_true _), by rw [h.lastErr, hcourse],
      by rw [hcfg, hcfgw, hi], h.bl nofun, h.text, ((initCalls s.params s.bl).take n).map (Call.done s.text), v, hlog, ?_,
      ?_, ?_, ?_⟩
    · rw [h.initPhase rfl, hcourse, if_neg (by simp)]
    · rw [List.countP_map, ← hcount]
      exact List.countP_congr fun q _ => by rw [Function.comp, isTransport_done]
    · intro e he
      obtain ⟨q, -, rfl⟩ := List.mem_map.mp he
      exact failed_done s.text q
    · rw [List.length_map, hlen]
    · rw [List.length_map, hlen, hcalls]

/-! The events of a command at every point of its run (60_exceptions.md R227). -/

/-- Pseudocode that has ended without a call has not ended with a transport error. -/
theorem proceed_running_or_ended (c : Instr) (k : List Micro) {s : State} (hb : s.busy = true) :
    (proceed c k s).busy = true ∨ ((proceed c k s).busy = false ∧ (proceed c k s).lastErr.isTransport = false) := by
  fun_induction proceed c k s <;> simp_all [ErrCode.isTransport]

/-- `es` are the events of a command that has run to the state `u`: none has failed while it runs, and at its end the last has
failed exactly when it ended with a transport error. -/
structure OnlyLastFails (u : State) (es : List Event) : Prop where
  running : u.busy = true → ∀ e ∈ es, e.failed = false
  ended : u.busy = false → (∀ e ∈ es.dropLast, e.failed = false)
    ∧ (u.lastErr.isTransport = true ↔ ∃ e, es.getLast? = some e ∧ e.failed = true)

/-- Pseudocode that goes on after events none of which has failed. -/
theorem onlyLastFails_proceed (c : Instr) (k : List Micro) {s : State} {es : List Event} (hb : s.busy = true)
    (hes : ∀ e ∈ es, e.failed = false) : OnlyLastFails (proceed c k s) es where
  running := fun _ => hes
  ended := fun hidle => by
    refine ⟨fun e he => hes e (List.mem_of_mem_dropLast he), ?_⟩
    obtain hrun | ⟨-, herr⟩ := proceed_running_or_ended c k hb
    · simp [hidle] at hrun
    · simp only [herr, Bool.false_eq_true, false_iff]
      rintro ⟨e, he, hfail⟩
      simp [hes e (List.mem_of_getLast? he)] at hfail

/-- A transport call that fails after events none of which has. -/
theorem onlyLastFails_raise (c : Instr) {kind : ErrCode} {s : State} {es : List Event} {e : Event}
    (hkind : kind.isTransport = true) (hes : ∀ e ∈ es, e.failed = false) (he : e.failed = true) :
    OnlyLastFails (raise c kind s) (es ++ [e]) where
  running := fun hb => by simp at hb
  ended := fun _ => by
    rw [List.dropLast_concat, List.getLast?_concat]
    exact ⟨hes, fun _ => ⟨e, rfl, he⟩, fun _ => hkind⟩

theorem onlyLastFails_step {s u t : State} {es : List Event} (hi : u.inbox = []) (htrace : u.eventTrace = s.eventTrace ++ es)
    (hu : OnlyLastFails u es) (h : step u = .next t) :
    ∃ es', t.eventTrace = s.eventTrace ++ es' ∧ OnlyLastFails t es' := by
  obtain ⟨-, rfl⟩ | ⟨hb, r, -, rfl⟩ := quiet_step_cases hi h
  · exact ⟨es, htrace, hu⟩
  · refine ⟨es ++ [u.answerEvent r.call], by rw [advance_eventTrace, htrace, List.append_assoc], ?_⟩
    have hes := hu.running hb
    rw [advance_eq]
    split
    · next hfail => exact onlyLastFails_raise r.cmd (failure_isTransport_of_failed hfail) hes hfail
    · next hok =>
      refine onlyLastFails_proceed _ _ (by rwa [afterCall_busy]) fun e he => ?_
      obtain he | he := List.mem_append.mp he
      · exact hes e he
      · rw [List.mem_singleton.mp he]
        exact Bool.eq_false_iff.mpr hok

/-- What every step of a started command keeps. -/
def TraceOnlyLastFails (s u : State) : Prop :=
  u.inbox = [] ∧ ∃ es, u.eventTrace = s.eventTrace ++ es ∧ OnlyLastFails u es

/-- Settles O44: no event at the acceptance, and each step adds the answered call to the ones that have not failed. -/
theorem onlyTheLastEventFails : Obligations.OnlyTheLastEventFails := by
  intro i s t u n hs hexec hrun
  have ht : TraceOnlyLastFails s t := by
    refine ⟨(exec_inbox hexec).trans hs.alone, [], by rw [exec_eventTrace hexec, List.append_nil], ?_⟩
    rw [exec_eq_next hexec]
    exact onlyLastFails_proceed _ _ rfl nofun
  have hstep (u u' : State) (hu : TraceOnlyLastFails s u) (h : step u = .next u') : TraceOnlyLastFails s u' := by
    obtain ⟨hi, es, htrace, hes⟩ := hu
    exact ⟨quiet_step_inbox hi h, onlyLastFails_step hi htrace hes h⟩
  obtain ⟨-, es, htrace, hes⟩ := run_preserves hstep n t u ht hrun
  refine ⟨es, htrace, fun e he => ?_, fun ⟨e, he, hfail⟩ => ?_, fun hb => (hes.ended hb).2⟩
  · cases hb : u.busy with
    | true => exact hes.running hb e (List.mem_of_mem_dropLast he)
    | false => exact (hes.ended hb).1 e he
  · refine Bool.eq_false_iff.mpr fun hb => ?_
    simp [hes.running hb e he] at hfail

end Sys2Proof.Machine
end

section
/-! SUPPORT. The assembler (spec/30_encoding.md R104): the word written with a row's bits and its operand's number is the word of
the command, and the lines one by one. -/

namespace Sys2Proof.Machine

/-- A number that fits the low field of a word is or-ed into the bits above it. -/
theorem append_ofNat {m n : Nat} (x : BitVec m) {k : Nat} (hk : k < 2 ^ n) :
    x ++ BitVec.ofNat n k = x.setWidth (m + n) <<< n ||| BitVec.ofNat (m + n) k := by
  rw [← BitVec.setWidth_ofNat_of_le_of_lt (Nat.le_add_left n m) hk, ← BitVec.setWidth_append_eq_shiftLeft_setWidth_or,
    BitVec.setWidth_eq]

/-! The word of an item whose operands fit (R104). -/

theorem encode_printc_ofNat {ch : Nat} (h : ch ≤ 255) :
    encode (.printc (BitVec.ofNat 8 ch)) = 0x2000 ||| BitVec.ofNat 16 ch :=
  append_ofNat 0b00100000#8 (by omega)

theorem encode_prints_ofNat {addr : Nat} (h : addr ≤ 4095) :
    encode (.prints (BitVec.ofNat 12 addr)) = 0x3000 ||| BitVec.ofNat 16 addr :=
  append_ofNat 0b0011#4 (by omega)

theorem encode_setcur_ofNat {row col : Nat} (hrow : row ≤ 1) (hcol : col ≤ 255) :
    encode (.setcur (if row = 0 then .first else .second) (BitVec.ofNat 8 col))
      = 0x4000 ||| (BitVec.ofNat 16 row <<< 8) ||| BitVec.ofNat 16 col := by
  obtain rfl | rfl : row = 0 ∨ row = 1 := by omega
  · exact append_ofNat (0b0100000#7 ++ Row.first.bit) (by omega)
  · exact append_ofNat (0b0100000#7 ++ Row.second.bit) (by omega)

theorem encode_setbl_ofNat {v : Nat} (h : v ≤ 1) : encode (.setbl (v == 1)) = 0x7000 ||| BitVec.ofNat 16 v := by
  obtain rfl | rfl : v = 0 ∨ v = 1 := by omega
  · rfl
  · rfl

theorem word_printc (ch : Nat) : (AsmItem.printc ch).word
    = if ch ≤ 255 then .ok (some (encode (.printc (BitVec.ofNat 8 ch)))) else .error .outOfRange := by
  rw [AsmItem.word]
  split
  · rw [if_neg (by omega)]
  · rw [if_pos (by omega), encode_printc_ofNat (by omega)]

theorem word_prints (addr : Nat) : (AsmItem.prints addr).word
    = if addr ≤ 4095 then .ok (some (encode (.prints (BitVec.ofNat 12 addr)))) else .error .outOfRange := by
  rw [AsmItem.word]
  split
  · rw [if_neg (by omega)]
  · rw [if_pos (by omega), encode_prints_ofNat (by omega)]

theorem word_setcur (row col : Nat) : (AsmItem.setcur row col).word
    = if row ≤ 1 ∧ col ≤ 255 then .ok (some (encode (.setcur (if row = 0 then .first else .second) (BitVec.ofNat 8 col))))
      else .error .outOfRange := by
  rw [AsmItem.word]
  split
  · rw [if_neg (by omega)]
  · rw [if_pos (by omega), encode_setcur_ofNat (by omega) (by omega)]

theorem word_setbl (v : Nat) : (AsmItem.setbl v).word
    = if v ≤ 1 then .ok (some (encode (.setbl (v == 1)))) else .error .outOfRange := by
  rw [AsmItem.word]
  split
  · rw [if_neg (by omega)]
  · rw [if_pos (by omega), encode_setbl_ofNat (by omega)]

/-! The effect of a command line. -/

theorem add_of_word {o : AsmOut} {i : AsmItem} {w : Word} (h : i.word = .ok (some w)) :
    o.add i = .ok { o with words := o.words ++ [w] } := by
  cases i with
  | org | asciz => cases h
  | _ => simp only [AsmOut.add, h]

theorem add_of_outOfRange {o : AsmOut} {i : AsmItem} (h : i.word = .error .outOfRange) : o.add i = .error .outOfRange := by
  cases i with
  | org | asciz => cases h
  | _ => simp only [AsmOut.add, h]

theorem assemble_of_word {l : List Char} {ls : List (List Char)} {o : AsmOut} {i : AsmItem} {w : Word}
    (hl : parseLine l = .ok (some i)) (h : i.word = .ok (some w)) :
    assemble (l :: ls) o = assemble ls { o with words := o.words ++ [w] } := by
  rw [assemble, hl]
  simp only [add_of_word h]

theorem assemble_of_outOfRange {l : List Char} {ls : List (List Char)} {o : AsmOut} {i : AsmItem}
    (hl : parseLine l = .ok (some i)) (h : i.word = .error .outOfRange) : assemble (l :: ls) o = .error .outOfRange := by
  rw [assemble, hl]
  simp only [add_of_outOfRange h]

/-- Settles O49: the words by their rows, the effect of a line by its word, and the table's lines evaluated. -/
theorem assemblerFollowsTheTable : Obligations.AssemblerFollowsTheTable :=
  ⟨word_printc, word_prints, word_setcur, word_setbl, rfl, rfl, rfl, rfl, fun _ _ _ _ _ => assemble_of_word,
    fun _ _ _ _ => assemble_of_outOfRange, rfl, rfl, rfl, rfl, rfl, rfl, rfl, rfl, rfl, rfl, rfl⟩

end Sys2Proof.Machine
end
